-- ==== Sys2Proof/Word.lean ====
section
/-! DEFINITION. The words of the machine: bytes, 16-bit words, 12-bit addresses, and the small index types.
Spec: spec/00_scope.md R6 (sizes and widths), R9 (bit numbering; every value is unsigned). -/

namespace Sys2Proof

/-- An 8-bit value: a V register, a memory byte, a timer, the immediate KK (R6, R68). -/
abbrev Byte := BitVec 8

/-- A 16-bit value: an instruction word, PC, I, a return address (R6). -/
abbrev Word := BitVec 16

/-- A 12-bit address, as the field NNN and LOAD_ORIGIN hold it (R7, R68). -/
abbrev Addr := BitVec 12

/-- The index of a general register V0..VF, the fields X and Y (R16, R68). -/
abbrev Reg := Fin 16

/-- The index of a key 0x0..0xF (R31). -/
abbrev Key := Fin 16

/-- A sprite height 0..15, the field N (R68). -/
abbrev Rows := Fin 16

/-- VF, the register that doubles as the flag output (R17). -/
abbrev vf : Reg := 15

end Sys2Proof
end

