-- ==== Sys2Proof/Config.lean ====
section
/-! DEFINITION. The configuration of the core and the free values.
Spec: spec/00_scope.md R7 (the eight configuration parameters), R8 (the draw `rnd8`), R13 (OPEN parameters),
spec/10_state.md R32 and R33 (the font). -/

namespace Sys2Proof

/-- The configuration record of R7: "The model takes each as an argument; none changes during a run."
A state carries its configuration (`Machine.State.cfg`), so that a claim about every state is a claim about every
configuration (log entry 1). -/
structure Config where
  /-- LOAD_ORIGIN, a 12-bit address, default 0x200. -/
  loadOrigin : Addr
  /-- WRAP_SPRITES, default false (clip). -/
  wrapSprites : Bool
  /-- SHIFT_USES_VY, OPEN: the source gives no default. -/
  shiftUsesVy : Bool
  /-- JUMP_OFFSET_VX, OPEN: the source gives no default. -/
  jumpOffsetVx : Bool
  /-- FONT_BASE, a 12-bit address, 0x000 by convention. -/
  fontBase : Addr
  /-- FONT_TABLE: 16 glyphs of 5 bytes. -/
  fontTable : Vector Byte 80
  /-- CPU_CLOCK_HZ: host timing only, no rule reads it. -/
  cpuClockHz : Int
  /-- INIT_REGS: V0..VF at reset, 0 by decision D1. -/
  initV : Vector Byte 16
  /-- INIT_REGS: I at reset, 0 by decision D1. -/
  initI : Word
deriving DecidableEq, Repr

/-- The free draw of the random-and-mask instruction (R8, R120): the `k`-th draw of a run is `Config.rnd8 k`.
It has no body, so no proof knows a value of it (log entry 3). -/
opaque Config.rnd8 : Nat → Byte

/-- SHIFT_USES_VY of the machine that `State.reset` stands for: OPEN (R7, R13), so a constant with no body (log entry 2). -/
opaque Config.openShiftUsesVy : Bool

/-- JUMP_OFFSET_VX of the machine that `State.reset` stands for: OPEN (R7, R13), so a constant with no body (log entry 2). -/
opaque Config.openJumpOffsetVx : Bool

/-- CPU_CLOCK_HZ of the machine that `State.reset` stands for: the source gives no value (log entry 2). -/
opaque Config.openCpuClockHz : Int

/-- The conventional font of R33, digits 0 to 7. -/
def Config.fontLow : List Byte :=
  [0xF0, 0x90, 0x90, 0x90, 0xF0] ++ [0x20, 0x60, 0x20, 0x20, 0x70] ++
  [0xF0, 0x10, 0xF0, 0x80, 0xF0] ++ [0xF0, 0x10, 0xF0, 0x10, 0xF0] ++
  [0x90, 0x90, 0xF0, 0x10, 0x10] ++ [0xF0, 0x80, 0xF0, 0x10, 0xF0] ++
  [0xF0, 0x80, 0xF0, 0x90, 0xF0] ++ [0xF0, 0x10, 0x20, 0x40, 0x40]

/-- The conventional font of R33, digits 8 to F. -/
def Config.fontHigh : List Byte :=
  [0xF0, 0x90, 0xF0, 0x90, 0xF0] ++ [0xF0, 0x90, 0xF0, 0x10, 0xF0] ++
  [0xF0, 0x90, 0xF0, 0x90, 0x90] ++ [0xE0, 0x90, 0xE0, 0x90, 0xE0] ++
  [0xF0, 0x80, 0x80, 0x80, 0xF0] ++ [0xE0, 0x90, 0x90, 0x90, 0xE0] ++
  [0xF0, 0x80, 0xF0, 0x80, 0xF0] ++ [0xF0, 0x80, 0xF0, 0x80, 0x80]

/-- FONT_TABLE as R33 gives it; the spec takes the bytes from general knowledge (D4, log entry 9). -/
def Config.standardFont : Vector Byte 80 :=
  ⟨(Config.fontLow ++ Config.fontHigh).toArray, rfl⟩

/-- The configuration of `State.reset`: the default of R7 where it gives one, a constant with no body where it gives none. -/
def Config.standard : Config where
  loadOrigin := 0x200
  wrapSprites := false
  shiftUsesVy := Config.openShiftUsesVy
  jumpOffsetVx := Config.openJumpOffsetVx
  fontBase := 0x000
  fontTable := Config.standardFont
  cpuClockHz := Config.openCpuClockHz
  initV := Vector.replicate 16 0
  initI := 0

end Sys2Proof
end

