-- ==== Sys2Proof/Syntax.lean ====
section
/-! DEFINITION. The instructions, the decoder's operation classes and the instruction descriptor.
Spec: spec/30_encoding.md R68 (fields), R69 and R70 (descriptor and classes), R79 (operands of each class),
spec/10_state.md R34. -/

namespace Sys2Proof

/-- One constructor per row of spec/opcode_table.json, with the operands R79 gives its class.
Every operand's type has exactly the values its field can hold, so every term is an instruction.
The word that is no instruction (class UNKNOWN, R74) has no constructor: the decoder answers `none` and the step
raises UnknownOpcode (R99). -/
inductive Instr where
  /-- 00E0, clear screen (R128). -/
  | cls
  /-- 00EE, return (R100). -/
  | ret
  /-- 1NNN, jump (R101). -/
  | jp (nnn : Addr)
  /-- 2NNN, call (R102). -/
  | call (nnn : Addr)
  /-- 3XKK, skip if equal to an immediate (R103). -/
  | seVxKk (x : Reg) (kk : Byte)
  /-- 4XKK, skip if not equal to an immediate (R104). -/
  | sneVxKk (x : Reg) (kk : Byte)
  /-- 5XY0, skip if two registers are equal (R105). -/
  | seVxVy (x y : Reg)
  /-- 6XKK, set register (R109). -/
  | ldVxKk (x : Reg) (kk : Byte)
  /-- 7XKK, add immediate (R110). -/
  | addVxKk (x : Reg) (kk : Byte)
  /-- 8XY0, copy a register (R111). -/
  | ldVxVy (x y : Reg)
  /-- 8XY1, bitwise or (R112). -/
  | orVxVy (x y : Reg)
  /-- 8XY2, bitwise and (R113). -/
  | andVxVy (x y : Reg)
  /-- 8XY3, bitwise exclusive or (R114). -/
  | xorVxVy (x y : Reg)
  /-- 8XY4, add with carry out (R115). -/
  | addVxVy (x y : Reg)
  /-- 8XY5, subtract (R116). -/
  | subVxVy (x y : Reg)
  /-- 8XY6, shift right; Y is read only when SHIFT_USES_VY (R117). -/
  | shrVxVy (x y : Reg)
  /-- 8XY7, reverse subtract (R118). -/
  | subnVxVy (x y : Reg)
  /-- 8XYE, shift left; Y is read only when SHIFT_USES_VY (R119). -/
  | shlVxVy (x y : Reg)
  /-- 9XY0, skip if two registers differ (R106). -/
  | sneVxVy (x y : Reg)
  /-- ANNN, set the index register (R122). -/
  | ldI (nnn : Addr)
  /-- BNNN, jump with offset; X is the high nibble of NNN (R107). -/
  | jpOff (nnn : Addr)
  /-- CXKK, random and mask (R120). -/
  | rnd (x : Reg) (kk : Byte)
  /-- DXYN, draw a sprite of N rows (R129). -/
  | drw (x y : Reg) (n : Rows)
  /-- EX9E, skip if the key is down (R133). -/
  | skp (x : Reg)
  /-- EXA1, skip if the key is up (R134). -/
  | sknp (x : Reg)
  /-- FX07, read the delay timer (R135). -/
  | ldVxDt (x : Reg)
  /-- FX0A, wait for a key (R136). -/
  | ldVxK (x : Reg)
  /-- FX15, set the delay timer (R137). -/
  | ldDtVx (x : Reg)
  /-- FX18, set the sound timer (R138). -/
  | ldStVx (x : Reg)
  /-- FX1E, add to the index register (R123). -/
  | addIVx (x : Reg)
  /-- FX29, address of a font glyph (R124). -/
  | ldFVx (x : Reg)
  /-- FX33, store the decimal digits (R125). -/
  | ldBVx (x : Reg)
  /-- FX55, store V0..Vx to memory (R126). -/
  | stRange (x : Reg)
  /-- FX65, load V0..Vx from memory (R127). -/
  | ldRange (x : Reg)
deriving DecidableEq, Repr

/-- The closed set of operation classes of R70, in its order. -/
inductive OpClass where
  | cls | ret | jp | call | seVxKk | sneVxKk | seVxVy | ldVxKk | addVxKk
  | ldVxVy | or | and | xor | addVxVy | sub | shr | subn | shl
  | sneVxVy | ldI | jpOff | rnd | drw | skp | sknp
  | ldVxDt | ldVxK | ldDtVx | ldStVx | addIVx | ldFVx | ldBVx | stRange | ldRange
  | unknown
deriving DecidableEq, Repr

/-- The instruction descriptor (R34, R69): the class and all five fields, "each sliced from w whatever the class". -/
structure Descriptor where
  cls : OpClass
  x : Reg
  y : Reg
  n : Rows
  kk : Byte
  nnn : Addr
deriving DecidableEq, Repr

end Sys2Proof
end

