-- ==== Sys2Proof/WellFormed.lean ====
section
/-! DEFINITION. Checks on the data that types alone do not bound.
An `Instr` needs no check: each operand's type is exactly its field (R68). A `Descriptor` carries overlapping fields, and a
`Config` a font that must lie in memory; both have checks here. Each check has an ill-formed term in Tests/Slice0.lean. -/

namespace Sys2Proof

/-- The four bits that stand for a register index, a key or a sprite height (R68). -/
abbrev indexBits (k : Fin 16) : BitVec 4 := BitVec.ofNat 4 k.val

/-- KK = w[7:0] holds Y = w[7:4] over N = w[3:0] (R68). -/
def Descriptor.kkAgrees (d : Descriptor) : Bool := d.kk = indexBits d.y ++ indexBits d.n

/-- NNN = w[11:0] holds X = w[11:8] over KK = w[7:0] (R68). -/
def Descriptor.nnnAgrees (d : Descriptor) : Bool := d.nnn = indexBits d.x ++ d.kk

/-- The fixed fields of the class match (R76): "A word that differs in a fixed field is UNKNOWN". -/
def Descriptor.fixedFieldsMatch (d : Descriptor) : Bool :=
  match d.cls with
  | .cls => d.nnn = 0x0E0
  | .ret => d.nnn = 0x0EE
  | .seVxVy | .sneVxVy | .ldVxVy => d.n = 0x0
  | .or => d.n = 0x1
  | .and => d.n = 0x2
  | .xor => d.n = 0x3
  | .addVxVy => d.n = 0x4
  | .sub => d.n = 0x5
  | .shr => d.n = 0x6
  | .subn => d.n = 0x7
  | .shl => d.n = 0xE
  | .skp => d.kk = 0x9E
  | .sknp => d.kk = 0xA1
  | .ldVxDt => d.kk = 0x07
  | .ldVxK => d.kk = 0x0A
  | .ldDtVx => d.kk = 0x15
  | .ldStVx => d.kk = 0x18
  | .addIVx => d.kk = 0x1E
  | .ldFVx => d.kk = 0x29
  | .ldBVx => d.kk = 0x33
  | .stRange => d.kk = 0x55
  | .ldRange => d.kk = 0x65
  | .jp | .call | .seVxKk | .sneVxKk | .ldVxKk | .addVxKk | .ldI | .jpOff | .rnd | .drw | .unknown => true

/-- A descriptor the decoder can put out. -/
def Descriptor.wf (d : Descriptor) : Bool := d.kkAgrees && d.nnnAgrees && d.fixedFieldsMatch

/-- The font lies inside memory: R163 writes `mem[FONT_BASE + i]` for i in 0..79 (log entry 10). -/
def Config.fontFits (c : Config) : Bool := c.fontBase.toNat + 80 ≤ 4096

end Sys2Proof
end

