-- ==== Sys2Proof/Decode.lean ====
section
/-! DEFINITION. The decoder, total on every word and on every list of bytes, and after it the encoder.
Spec: spec/30_encoding.md R65 to R83, the table of R71 and spec/opcode_table.json; spec/20_memory.md R54 (big-endian). -/

namespace Sys2Proof

/-- A four-bit field as a register index, a key or a height. -/
def bitsIndex (b : BitVec 4) : Fin 16 := ⟨b.toNat, b.isLt⟩

/-- The major opcode nibble, w[15:12] (R68). -/
def opField (w : Word) : BitVec 4 := w.extractLsb' 12 4

/-- X = w[11:8] (R68). -/
def xField (w : Word) : Reg := bitsIndex (w.extractLsb' 8 4)

/-- Y = w[7:4] (R68). -/
def yField (w : Word) : Reg := bitsIndex (w.extractLsb' 4 4)

/-- N = w[3:0] (R68). -/
def nField (w : Word) : Rows := bitsIndex (w.extractLsb' 0 4)

/-- KK = w[7:0] (R68). -/
def kkField (w : Word) : Byte := w.extractLsb' 0 8

/-- NNN = w[11:0] (R68). -/
def nnnField (w : Word) : Addr := w.extractLsb' 0 12

/-- The class of a word: the arms of R71, "tried in the order given". -/
def classOf (w : Word) : OpClass :=
  let op := opField w
  let n := nField w
  let kk := kkField w
  if w = 0x00E0 then .cls
  else if w = 0x00EE then .ret
  else if op = 0x0 then .unknown
  else if op = 0x1 then .jp
  else if op = 0x2 then .call
  else if op = 0x3 then .seVxKk
  else if op = 0x4 then .sneVxKk
  else if op = 0x5 ∧ n = 0x0 then .seVxVy
  else if op = 0x6 then .ldVxKk
  else if op = 0x7 then .addVxKk
  else if op = 0x8 ∧ n = 0x0 then .ldVxVy
  else if op = 0x8 ∧ n = 0x1 then .or
  else if op = 0x8 ∧ n = 0x2 then .and
  else if op = 0x8 ∧ n = 0x3 then .xor
  else if op = 0x8 ∧ n = 0x4 then .addVxVy
  else if op = 0x8 ∧ n = 0x5 then .sub
  else if op = 0x8 ∧ n = 0x6 then .shr
  else if op = 0x8 ∧ n = 0x7 then .subn
  else if op = 0x8 ∧ n = 0xE then .shl
  else if op = 0x9 ∧ n = 0x0 then .sneVxVy
  else if op = 0xA then .ldI
  else if op = 0xB then .jpOff
  else if op = 0xC then .rnd
  else if op = 0xD then .drw
  else if op = 0xE ∧ kk = 0x9E then .skp
  else if op = 0xE ∧ kk = 0xA1 then .sknp
  else if op = 0xF ∧ kk = 0x07 then .ldVxDt
  else if op = 0xF ∧ kk = 0x0A then .ldVxK
  else if op = 0xF ∧ kk = 0x15 then .ldDtVx
  else if op = 0xF ∧ kk = 0x18 then .ldStVx
  else if op = 0xF ∧ kk = 0x1E then .addIVx
  else if op = 0xF ∧ kk = 0x29 then .ldFVx
  else if op = 0xF ∧ kk = 0x33 then .ldBVx
  else if op = 0xF ∧ kk = 0x55 then .stRange
  else if op = 0xF ∧ kk = 0x65 then .ldRange
  else .unknown

/-- `Decode(w) = (class, x, y, n, kk, nnn)` (R69): the core's combinational decode output (R157). -/
def describe (w : Word) : Descriptor where
  cls := classOf w
  x := xField w
  y := yField w
  n := nField w
  kk := kkField w
  nnn := nnnField w

/-- The instruction a descriptor stands for, with the operands R79 gives its class; none for UNKNOWN. -/
def instrOf (d : Descriptor) : Option Instr :=
  match d.cls with
  | .cls => some .cls
  | .ret => some .ret
  | .jp => some (.jp d.nnn)
  | .call => some (.call d.nnn)
  | .seVxKk => some (.seVxKk d.x d.kk)
  | .sneVxKk => some (.sneVxKk d.x d.kk)
  | .seVxVy => some (.seVxVy d.x d.y)
  | .ldVxKk => some (.ldVxKk d.x d.kk)
  | .addVxKk => some (.addVxKk d.x d.kk)
  | .ldVxVy => some (.ldVxVy d.x d.y)
  | .or => some (.orVxVy d.x d.y)
  | .and => some (.andVxVy d.x d.y)
  | .xor => some (.xorVxVy d.x d.y)
  | .addVxVy => some (.addVxVy d.x d.y)
  | .sub => some (.subVxVy d.x d.y)
  | .shr => some (.shrVxVy d.x d.y)
  | .subn => some (.subnVxVy d.x d.y)
  | .shl => some (.shlVxVy d.x d.y)
  | .sneVxVy => some (.sneVxVy d.x d.y)
  | .ldI => some (.ldI d.nnn)
  | .jpOff => some (.jpOff d.nnn)
  | .rnd => some (.rnd d.x d.kk)
  | .drw => some (.drw d.x d.y d.n)
  | .skp => some (.skp d.x)
  | .sknp => some (.sknp d.x)
  | .ldVxDt => some (.ldVxDt d.x)
  | .ldVxK => some (.ldVxK d.x)
  | .ldDtVx => some (.ldDtVx d.x)
  | .ldStVx => some (.ldStVx d.x)
  | .addIVx => some (.addIVx d.x)
  | .ldFVx => some (.ldFVx d.x)
  | .ldBVx => some (.ldBVx d.x)
  | .stRange => some (.stRange d.x)
  | .ldRange => some (.ldRange d.x)
  | .unknown => none

/-- The instruction of a word, or none for an UNKNOWN word (R74). -/
def decode (w : Word) : Option Instr := instrOf (describe w)

/-- Why a list of bytes is no instruction. -/
inductive DecodeError where
  /-- Fewer than the two bytes an instruction takes (R65). -/
  | truncated
  /-- The word is UNKNOWN (R74); it carries the raw word. -/
  | unknownOpcode (word : Word)
deriving DecidableEq, Repr

/-- Two bytes as one big-endian word: the byte at the lower address is w[15:8] (R54, R66). -/
def wordOfBytes (hi lo : Byte) : Word := hi ++ lo

/-- The instruction at the head of a list of bytes and the bytes after it; "the next instruction always starts
2 bytes later" (R65). -/
def decodeBytes : List Byte → Except DecodeError (Instr × List Byte)
  | hi :: lo :: rest =>
    match decode (wordOfBytes hi lo) with
    | some i => .ok (i, rest)
    | none => .error (.unknownOpcode (wordOfBytes hi lo))
  | _ => .error .truncated

/-- Format F-addr (R67). -/
def wordAddr (op : BitVec 4) (nnn : Addr) : Word := op ++ nnn

/-- Format F-xkk (R67). -/
def wordXkk (op : BitVec 4) (x : Reg) (kk : Byte) : Word := op ++ (indexBits x ++ kk)

/-- Formats F-xy and F-xyn (R67). -/
def wordXyn (op : BitVec 4) (x y : Reg) (n : BitVec 4) : Word := op ++ (indexBits x ++ (indexBits y ++ n))

/-- The word of an instruction: the patterns of R70 and of spec/opcode_table.json with the operands in place. -/
def encode : Instr → Word
  | .cls => 0x00E0
  | .ret => 0x00EE
  | .jp nnn => wordAddr 0x1 nnn
  | .call nnn => wordAddr 0x2 nnn
  | .seVxKk x kk => wordXkk 0x3 x kk
  | .sneVxKk x kk => wordXkk 0x4 x kk
  | .seVxVy x y => wordXyn 0x5 x y 0x0
  | .ldVxKk x kk => wordXkk 0x6 x kk
  | .addVxKk x kk => wordXkk 0x7 x kk
  | .ldVxVy x y => wordXyn 0x8 x y 0x0
  | .orVxVy x y => wordXyn 0x8 x y 0x1
  | .andVxVy x y => wordXyn 0x8 x y 0x2
  | .xorVxVy x y => wordXyn 0x8 x y 0x3
  | .addVxVy x y => wordXyn 0x8 x y 0x4
  | .subVxVy x y => wordXyn 0x8 x y 0x5
  | .shrVxVy x y => wordXyn 0x8 x y 0x6
  | .subnVxVy x y => wordXyn 0x8 x y 0x7
  | .shlVxVy x y => wordXyn 0x8 x y 0xE
  | .sneVxVy x y => wordXyn 0x9 x y 0x0
  | .ldI nnn => wordAddr 0xA nnn
  | .jpOff nnn => wordAddr 0xB nnn
  | .rnd x kk => wordXkk 0xC x kk
  | .drw x y n => wordXyn 0xD x y (indexBits n)
  | .skp x => wordXkk 0xE x 0x9E
  | .sknp x => wordXkk 0xE x 0xA1
  | .ldVxDt x => wordXkk 0xF x 0x07
  | .ldVxK x => wordXkk 0xF x 0x0A
  | .ldDtVx x => wordXkk 0xF x 0x15
  | .ldStVx x => wordXkk 0xF x 0x18
  | .addIVx x => wordXkk 0xF x 0x1E
  | .ldFVx x => wordXkk 0xF x 0x29
  | .ldBVx x => wordXkk 0xF x 0x33
  | .stRange x => wordXkk 0xF x 0x55
  | .ldRange x => wordXkk 0xF x 0x65

/-- The byte at the lower address, w[15:8] (R66). -/
def highByte (w : Word) : Byte := w.extractLsb' 8 8

/-- The byte at the higher address, w[7:0] (R66). -/
def lowByte (w : Word) : Byte := w.extractLsb' 0 8

/-- The two bytes of a word as memory stores them, big-endian (R54). -/
def bytesOfWord (w : Word) : List Byte := [highByte w, lowByte w]

/-- The bytes of an instruction (R54, R65). -/
def encodeBytes (i : Instr) : List Byte := bytesOfWord (encode i)

/-- The instruction word of a row of the opcode table: bit 0 of `w` is the word's least significant bit, and every bit
at or above `nbits` is 0. -/
def tableWord (nbits w : Nat) : Word := BitVec.ofNat 16 (w % 2 ^ nbits)

/-- The instruction the decoder reads from an instruction whose bits are `w`, laid out in memory big-endian. -/
def decodeTableWord (nbits w : Nat) : Option Instr :=
  match decodeBytes (bytesOfWord (tableWord nbits w)) with
  | .ok (i, _) => some i
  | .error _ => none

end Sys2Proof
end

