-- ==== Sys2Proof/Machine/State.lean ====
section
/-! DEFINITION. The state of the core as plain data, the reasons a step can stop, and the state after reset.
Spec: spec/10_state.md R16 to R45, spec/20_memory.md R46, spec/60_exceptions.md R140 and R157,
spec/70_reset_and_hazards.md R163. -/

namespace Sys2Proof.Machine

/-- The error record of Halted (R37). -/
inductive ErrorRecord where
  /-- The step met a word that decodes as UNKNOWN: the raw word and its fetch address (R99). -/
  | unknownOpcode (word pc : Word)
  /-- CALL with 16 entries on the stack (R102). -/
  | stackOverflow
  /-- RET with an empty stack (R100). -/
  | stackUnderflow
  /-- An access above 0xFFF: the lowest out-of-range address of the access (R51). -/
  | outOfBounds (address : Word)
deriving DecidableEq, Repr

/-- The run state (R35). -/
inductive RunState where
  /-- Steps execute instructions. -/
  | running
  /-- FX0A waits for a key-down event; the register that receives the key is remembered (R36). -/
  | waitingForKey (x : Reg)
  /-- A fatal error stopped the core; terminal (R145). -/
  | halted (e : ErrorRecord)
deriving DecidableEq, Repr

/-- The actions of R2: each is one atomic transition. -/
inductive Action where
  /-- Execute one step (R98). -/
  | step
  /-- Decrement the timers (R150). -/
  | tick
  /-- Key k goes down (R154). -/
  | keyDown (k : Key)
  /-- Key k goes up (R153). -/
  | keyUp (k : Key)
  /-- Build a new machine state from a ROM image and a configuration (R163). -/
  | reset (rom : List Byte) (cfg : Config)
deriving DecidableEq, Repr

/-- The 64 × 32 grid of one-bit pixels: 32 rows of 64 columns (R30). -/
abbrev Display := Vector (Vector Bool 64) 32

/-- The memory: the bytes that differ from the reset contents, as address and byte, addresses strictly rising.
What an unlisted address reads as is `resetByte` of Machine/Ops.lean (R45, log entry 8). -/
abbrev Memory := List Host.Cell

/-- The state of one core. All but the last three fields are the tuple of spec/10_state.md. -/
structure State where
  /-- V0..VF (R16). -/
  v : Vector Byte 16
  /-- I, the index register (R22). -/
  i : Word
  /-- PC, the fetch address (R19). -/
  pc : Word
  /-- The call stack; its last element is the top, and its length is the hidden stack pointer (R27, R28). -/
  stack : List Word
  /-- DT, the delay timer (R24). -/
  dt : Byte
  /-- ST, the sound timer (R25). -/
  st : Byte
  /-- mem[0x000..0xFFF] (R44). -/
  mem : Memory
  /-- The display buffer (R30). -/
  disp : Display
  /-- The keypad: true is down (R31). -/
  keys : Vector Bool 16
  /-- The run state, with the wait register and the error record (R35 to R37). -/
  runstate : RunState
  /-- The configuration of R7, carried so that every claim quantifies over it (log entry 1). -/
  cfg : Config
  /-- THE MODEL'S OWN: how many random bytes have been drawn (R8, log entry 3). -/
  draws : Nat
  /-- THE MODEL'S OWN: the actions the host fires next, oldest first; with none left the host fires steps
  (R148, R161, log entry 4). -/
  pending : List Action
deriving DecidableEq, Repr

/-- No step of this core ends in a fault, so this type has no constructor: the four fatal errors of R140 are next states
whose run state is Halted (R97, log entry 5). -/
inductive Fault where
deriving DecidableEq, Repr

/-- Why the model refuses to go on. -/
inductive Refusal where
  /-- Raised by an arm of `exec` whose instruction has no meaning yet; no arm does. Safe. -/
  | notModelled (mnemonic : String)
  /-- Raised by the reset action when the ROM image does not fit: InvalidRomSize, "No machine state is built, so no step
  can run" (R165). No instruction raises it. Safe. -/
  | invalidRomSize
deriving DecidableEq, Repr

/-- What one action or one instruction answers. -/
abbrev Result := Host.Outcome State Fault Refusal

/-- The state the reset action builds before the ROM is placed (R45, R163): every byte of memory at its reset contents. -/
def State.init (cfg : Config) : State where
  v := cfg.initV
  i := cfg.initI
  pc := cfg.loadOrigin.setWidth 16
  stack := []
  dt := 0
  st := 0
  mem := []
  disp := Vector.replicate 32 (Vector.replicate 64 false)
  keys := Vector.replicate 16 false
  runstate := .running
  cfg := cfg
  draws := 0
  pending := []

/-- The machine right after reset, with the standard configuration and no ROM (R45; log entries 2, 6 and 7). -/
def State.reset : State := State.init Config.standard

end Sys2Proof.Machine
end

