-- ==== Sys2Proof/Machine/Ops.lean ====
section
/-! DEFINITION. The shared operations over registers, memory, stack and run state.
Spec: spec/20_memory.md R50 to R54, spec/10_state.md R29, spec/40_step.md R91, R93, R96, R97, spec/60_exceptions.md R140. -/

namespace Sys2Proof.Machine

/-! ## Registers -/

/-- `V[r]` (R10). -/
def State.reg (s : State) (r : Reg) : Byte := s.v[r.val]

/-- `V[r] <- b` (R10). -/
def State.setReg (s : State) (r : Reg) (b : Byte) : State := { s with v := s.v.set r.val b }

/-- `I <- w`. -/
def State.setI (s : State) (w : Word) : State := { s with i := w }

/-- `PC <- w`. -/
def State.setPc (s : State) (w : Word) : State := { s with pc := w }

/-- `DT <- b`. -/
def State.setDt (s : State) (b : Byte) : State := { s with dt := b }

/-- `ST <- b`. -/
def State.setSt (s : State) (b : Byte) : State := { s with st := b }

/-- Replace the call stack. -/
def State.setStack (s : State) (l : List Word) : State := { s with stack := l }

/-- Replace the memory. -/
def State.setMem (s : State) (m : Memory) : State := { s with mem := m }

/-- Replace the display buffer. -/
def State.setDisp (s : State) (d : Display) : State := { s with disp := d }

/-- `state <- r` (R35). -/
def State.setRunstate (s : State) (r : RunState) : State := { s with runstate := r }

/-- `Key(k)` (R10). -/
def State.key (s : State) (k : Key) : Bool := s.keys[k.val]

/-- `Key(k) <- b`. -/
def State.setKey (s : State) (k : Key) (b : Bool) : State := { s with keys := s.keys.set k.val b }

/-- Count one random draw (log entry 3). -/
def State.countDraw (s : State) : State := { s with draws := s.draws + 1 }

/-- Replace the actions the host fires next (log entry 4). -/
def State.setPending (s : State) (l : List Action) : State := { s with pending := l }

/-! ## The next PC (R91) -/

/-- `next = pc0 + 2`; the instruction runs with PC = pc0. -/
def State.nextPc (s : State) : Word := s.pc + 2

/-- The sequential kind of R91: `PC <- next`. -/
def State.advance (s : State) : State := s.setPc s.nextPc

/-- The skip kind of R91: `next + 2` if the condition holds, else `next` (R93). -/
def State.skipIf (s : State) (c : Bool) : State := s.setPc (if c then s.nextPc + 2 else s.nextPc)

/-- A result and a flag: the result to Vx first, the flag to VF second (R96). -/
def State.setRegFlag (s : State) (x : Reg) (result flag : Byte) : State := (s.setReg x result).setReg vf flag

/-! ## Fatal errors -/

/-- TAKING A FATAL ERROR, the one shared operation: "the state after the step is the state before it with one change:
`runstate <- Halted(E)`" (R97). Every check comes before every write, so `s` is the state at the start of the step and
its PC is pc0. -/
def raise (e : ErrorRecord) (s : State) : Result := .next (s.setRunstate (.halted e))

/-- `CheckRange(a, n)` of R50, for n ≥ 1: the error of an access to a..a+n-1, if it leaves 0x000..0xFFF. -/
def checkRange (a n : Nat) : Option ErrorRecord :=
  if a + n - 1 > 0xFFF then some (.outOfBounds (BitVec.ofNat 16 (max a 0x1000))) else none

/-- Run `k` only if the whole access is in range; else raise the error (R50). -/
def withRange (a n : Nat) (s : State) (k : Result) : Result :=
  match checkRange a n with
  | some e => raise e s
  | none => k

/-! ## Memory -/

/-- The reset contents of a byte: the font at FONT_BASE..FONT_BASE+79 and zero elsewhere (R45). This is what an address
that the memory does not list reads as (log entry 8). -/
def resetByte (cfg : Config) (a : Nat) : Byte :=
  if h : cfg.fontBase.toNat ≤ a ∧ a - cfg.fontBase.toNat < 80 then cfg.fontTable[a - cfg.fontBase.toNat]'h.2 else 0

/-- The listed byte at an address. -/
def Memory.find (m : Memory) (a : Nat) : Option Byte :=
  match m with
  | [] => none
  | (b, v) :: rest => if b = a then some v else Memory.find rest a

/-- Read one byte (R10 `MemRead`, after its range check). -/
def Memory.read (cfg : Config) (m : Memory) (a : Nat) : Byte := (Memory.find m a).getD (resetByte cfg a)

/-- List a byte, keeping the addresses rising. -/
def Memory.insert (m : Memory) (a : Nat) (v : Byte) : Memory :=
  match m with
  | [] => [(a, v)]
  | (b, u) :: rest =>
    if a < b then (a, v) :: (b, u) :: rest
    else if a = b then (a, v) :: rest
    else (b, u) :: Memory.insert rest a v

/-- Unlist an address. -/
def Memory.erase (m : Memory) (a : Nat) : Memory := m.filter (fun c => c.1 ≠ a)

/-- Write one byte (R10 `MemWrite`, after its range check): a byte equal to the reset contents is unlisted. -/
def Memory.write (cfg : Config) (m : Memory) (a : Nat) (v : Byte) : Memory :=
  if v = resetByte cfg a then Memory.erase m a else Memory.insert m a v

/-- Write bytes at ascending addresses (R55). -/
def Memory.writeList (cfg : Config) (m : Memory) (a : Nat) (bs : List Byte) : Memory :=
  match bs with
  | [] => m
  | b :: rest => Memory.writeList cfg (Memory.write cfg m a b) (a + 1) rest

/-- The canonical form: addresses strictly rising and within 0x000..0xFFF, no entry equal to the reset contents. -/
abbrev Memory.wf (cfg : Config) (m : Memory) : Prop :=
  m.Pairwise (fun p q => p.1 < q.1) ∧ ∀ p ∈ m, p.1 < 4096 ∧ p.2 ≠ resetByte cfg p.1

/-- The byte at an address. -/
def State.byte (s : State) (a : Nat) : Byte := Memory.read s.cfg s.mem a

/-- The bytes at a, a+1, .., a+n-1 (R55). -/
def State.bytes (s : State) (a n : Nat) : List Byte := (List.range n).map (fun k => s.byte (a + k))

/-- Store bytes at a, a+1, .. (R55). -/
def State.store (s : State) (a : Nat) (bs : List Byte) : State := s.setMem (Memory.writeList s.cfg s.mem a bs)

/-- The word at an address, big-endian (R54). -/
def State.word (s : State) (a : Nat) : Word := wordOfBytes (s.byte a) (s.byte (a + 1))

/-- `Fetch(PC)` (R54, R89). -/
def State.fetch (s : State) : Except ErrorRecord Word :=
  match checkRange s.pc.toNat 2 with
  | some e => .error e
  | none => .ok (s.word s.pc.toNat)

/-! ## Register ranges (R126, R127) -/

/-- V0..Vx. -/
def State.regsTo (s : State) (x : Reg) : List Byte := s.v.toList.take (x.val + 1)

/-- Write bytes to the registers k, k+1, .. -/
def writeRegs (v : Vector Byte 16) (k : Nat) (bs : List Byte) : Vector Byte 16 :=
  match bs with
  | [] => v
  | b :: rest => writeRegs (v.setIfInBounds k b) (k + 1) rest

/-- Write bytes to V0, V1, .. -/
def State.loadRegs (s : State) (bs : List Byte) : State := { s with v := writeRegs s.v 0 bs }

/-! ## The call stack (R29) -/

/-- `push(v)`. -/
def State.push (s : State) (w : Word) : Except ErrorRecord State :=
  if s.stack.length = 16 then .error .stackOverflow else .ok (s.setStack (s.stack ++ [w]))

/-- `pop()`: the top and the state without it. -/
def State.pop (s : State) : Except ErrorRecord (Word × State) :=
  match s.stack.getLast? with
  | none => .error .stackUnderflow
  | some w => .ok (w, s.setStack s.stack.dropLast)

/-! ## The display buffer (R30) -/

/-- `Disp(x, y)`: column x, row y. -/
def Display.pixel (d : Display) (x : Fin 64) (y : Fin 32) : Bool := (d[y.val])[x.val]

/-- `Disp(x, y) <- b`. -/
def Display.setPixel (d : Display) (x : Fin 64) (y : Fin 32) (b : Bool) : Display :=
  d.set y.val ((d[y.val]).set x.val b)

/-- The buffer with every pixel 0. -/
def Display.clear : Display := Vector.replicate 32 (Vector.replicate 64 false)

/-! ## The UNKNOWN word (R99) -/

/-- "Executing the UNKNOWN class raises `UnknownOpcode(w, pc0)`": the raw word and its fetch address. -/
def execUnknown (w : Word) (s : State) : Result := raise (.unknownOpcode w s.pc) s

/-! ## Placing an instruction -/

/-- Where the next instruction is fetched: PC, or the load origin 0x200 when PC is too high for any fetch (log entry 15). -/
def State.fetchSlot (s : State) : Word := if s.pc.toNat + 1 ≤ 0xFFF then s.pc else 0x200

/-- The state in which the very next step runs the instruction of word `w`: its two bytes stand big-endian at the fetch
address, the core is Running and no other action is due (log entry 7). -/
def State.placeWord (s : State) (w : Word) : State :=
  (((s.setPc s.fetchSlot).store s.fetchSlot.toNat (bytesOfWord w)).setRunstate .running).setPending []

end Sys2Proof.Machine
end

