-- ==== Sys2Proof/Machine/Flags.lean ====
section
/-! DEFINITION. Every flag the core computes: VF is the only flag (R17, R38).
The conditions of carry, borrow and shift-out stand here; the collision of a sprite draw is gathered pixel by pixel in
Machine/Screen.lean and reaches VF through `flagByte` too. Spec: spec/42_alu.md R108, R115 to R119, R121. -/

namespace Sys2Proof.Machine

/-- A condition as the value VF takes: 1 or 0. -/
def flagByte (c : Bool) : Byte := if c then 1 else 0

/-- Carry of a + b: `a + b > 255` (R108). -/
def carryOut (a b : Byte) : Bool := a.toNat + b.toNat > 255

/-- NOT borrow of a − b: `a ≥ b` (R108). -/
def noBorrow (a b : Byte) : Bool := a.toNat ≥ b.toNat

/-- The bit a right shift moves out, s[0] (R117). -/
def shiftedOutRight (s : Byte) : Bool := s.getLsbD 0

/-- The bit a left shift moves out, s[7] (R119). -/
def shiftedOutLeft (s : Byte) : Bool := s.getLsbD 7

end Sys2Proof.Machine
end

