-- ==== Sys2Proof/Machine/Operands.lean ====
section
/-! DEFINITION. Every operand form beyond a plain field.
Spec: spec/42_alu.md R117 and R119 (shift source), spec/41_control.md R107 (offset register),
spec/43_index_memory.md R124 and R125, spec/44_display.md R129 and R130, spec/45_keys_timers.md R133. -/

namespace Sys2Proof.Machine

/-- The shift source: `if SHIFT_USES_VY then V[y] else V[x]` (R117, R119). -/
def State.shiftSource (s : State) (x y : Reg) : Byte := if s.cfg.shiftUsesVy then s.reg y else s.reg x

/-- A 12-bit address widened with zeros where it meets PC or I (R80). -/
def zext16 (a : Addr) : Word := a.setWidth 16

/-- The offset register of BNNN: V0, or Vx with x = nnn[11:8] when JUMP_OFFSET_VX (R107). -/
def State.offsetReg (s : State) (nnn : Addr) : Reg :=
  if s.cfg.jumpOffsetVx then bitsIndex (nnn.extractLsb' 8 4) else 0

/-- The target of BNNN (R107). -/
def State.offsetTarget (s : State) (nnn : Addr) : Word := zext16 nnn + (s.reg (s.offsetReg nnn)).setWidth 16

/-- `V[x] mod 16`: the key index of SKP and SKNP (R133, decision D13). -/
def keyIndex (b : Byte) : Key := Fin.ofNat 16 b.toNat

/-- The glyph address of a digit: `FONT_BASE + 5 * (V[x] mod 16)` (R124, decision D14). -/
def glyphAddress (cfg : Config) (b : Byte) : Word := BitVec.ofNat 16 (cfg.fontBase.toNat + 5 * (b.toNat % 16))

/-- The three decimal digits, hundreds first (R125). -/
def bcdDigits (b : Byte) : List Byte :=
  [BitVec.ofNat 8 (b.toNat / 100), BitVec.ofNat 8 (b.toNat / 10 % 10), BitVec.ofNat 8 (b.toNat % 10)]

/-- Where a sprite pixel lands (R130). -/
inductive Placement where
  /-- Past the right or bottom edge with WRAP_SPRITES false. -/
  | clipped
  /-- On the pixel at column x, row y. -/
  | cell (x : Fin 64) (y : Fin 32)
deriving DecidableEq, Repr

/-- `Place(px, py)` (R130). -/
def place (wrap : Bool) (px py : Nat) : Placement :=
  if wrap then .cell (Fin.ofNat 64 px) (Fin.ofNat 32 py)
  else if px > 63 ∨ py > 31 then .clipped
  else .cell (Fin.ofNat 64 px) (Fin.ofNat 32 py)

/-- The sprite's start column, `V[x] mod 64` (R129). -/
def startColumn (b : Byte) : Nat := b.toNat % 64

/-- The sprite's start row, `V[y] mod 32` (R129). -/
def startRow (b : Byte) : Nat := b.toNat % 32

end Sys2Proof.Machine
end

