-- ==== Sys2Proof/Machine/Alu.lean ====
section
/-! DEFINITION. Register ALU and random-and-mask. Every instruction here is sequential and raises nothing.
Spec: spec/42_alu.md R109 to R120. -/

namespace Sys2Proof.Machine

/-- 6XKK: `V[x] <- kk` (R109). -/
def execLdVxKk (x : Reg) (kk : Byte) (s : State) : Result := .next (s.setReg x kk).advance

/-- 7XKK: `V[x] <- (V[x] + kk) mod 256`, no flag (R110). -/
def execAddVxKk (x : Reg) (kk : Byte) (s : State) : Result := .next (s.setReg x (s.reg x + kk)).advance

/-- 8XY0: `V[x] <- V[y]` (R111). -/
def execLdVxVy (x y : Reg) (s : State) : Result := .next (s.setReg x (s.reg y)).advance

/-- 8XY1: `V[x] <- V[x] OR V[y]`, VF is not reset (R112, D7). -/
def execOrVxVy (x y : Reg) (s : State) : Result := .next (s.setReg x (s.reg x ||| s.reg y)).advance

/-- 8XY2: `V[x] <- V[x] AND V[y]`, VF is not reset (R113, D7). -/
def execAndVxVy (x y : Reg) (s : State) : Result := .next (s.setReg x (s.reg x &&& s.reg y)).advance

/-- 8XY3: `V[x] <- V[x] XOR V[y]`, VF is not reset (R114, D7). -/
def execXorVxVy (x y : Reg) (s : State) : Result := .next (s.setReg x (s.reg x ^^^ s.reg y)).advance

/-- 8XY4: the sum mod 256 to Vx, then the carry to VF (R115). -/
def execAddVxVy (x y : Reg) (s : State) : Result :=
  .next (s.setRegFlag x (s.reg x + s.reg y) (flagByte (carryOut (s.reg x) (s.reg y)))).advance

/-- 8XY5: Vx − Vy mod 256 to Vx, then NOT borrow to VF (R116). -/
def execSubVxVy (x y : Reg) (s : State) : Result :=
  .next (s.setRegFlag x (s.reg x - s.reg y) (flagByte (noBorrow (s.reg x) (s.reg y)))).advance

/-- 8XY6: the shift source by one to the right to Vx, then the bit shifted out to VF (R117). -/
def execShrVxVy (x y : Reg) (s : State) : Result :=
  .next (s.setRegFlag x (s.shiftSource x y >>> 1) (flagByte (shiftedOutRight (s.shiftSource x y)))).advance

/-- 8XY7: Vy − Vx mod 256 to Vx, then NOT borrow to VF (R118). -/
def execSubnVxVy (x y : Reg) (s : State) : Result :=
  .next (s.setRegFlag x (s.reg y - s.reg x) (flagByte (noBorrow (s.reg y) (s.reg x)))).advance

/-- 8XYE: the shift source by one to the left to Vx, then the bit shifted out to VF (R119). -/
def execShlVxVy (x y : Reg) (s : State) : Result :=
  .next (s.setRegFlag x (s.shiftSource x y <<< 1) (flagByte (shiftedOutLeft (s.shiftSource x y)))).advance

/-- CXKK for a given draw: `V[x] <- rnd8 AND kk`, and the draw is used up (R120). -/
def rndWith (rnd8 : Byte) (x : Reg) (kk : Byte) (s : State) : Result :=
  .next ((s.setReg x (rnd8 &&& kk)).countDraw).advance

/-- CXKK: "rnd8: a fresh 8-bit draw for this step" (R120); the draw is free (R8, log entry 3). -/
def execRnd (x : Reg) (kk : Byte) (s : State) : Result := rndWith (Config.rnd8 s.draws) x kk s

end Sys2Proof.Machine
end

