-- ==== Sys2Proof/Machine/Control.lean ====
section
/-! DEFINITION. Control transfer and conditional skips.
Spec: spec/41_control.md R100 to R107. No target is checked when the transfer executes (R107, decision D19). -/

namespace Sys2Proof.Machine

/-- 00EE: `PC <- pop()`; StackUnderflow on an empty stack (R100). -/
def execRet (s : State) : Result :=
  match s.pop with
  | .error e => raise e s
  | .ok (w, t) => .next (t.setPc w)

/-- 1NNN: `PC <- zext_16(nnn)` (R101). -/
def execJp (nnn : Addr) (s : State) : Result := .next (s.setPc (zext16 nnn))

/-- 2NNN: `push(next)`, then `PC <- zext_16(nnn)`; StackOverflow with 16 entries (R102). -/
def execCall (nnn : Addr) (s : State) : Result :=
  match s.push s.nextPc with
  | .error e => raise e s
  | .ok t => .next (t.setPc (zext16 nnn))

/-- 3XKK: skip if V[x] = kk (R103). -/
def execSeVxKk (x : Reg) (kk : Byte) (s : State) : Result := .next (s.skipIf (s.reg x == kk))

/-- 4XKK: skip if V[x] ≠ kk (R104). -/
def execSneVxKk (x : Reg) (kk : Byte) (s : State) : Result := .next (s.skipIf (s.reg x != kk))

/-- 5XY0: skip if V[x] = V[y] (R105). -/
def execSeVxVy (x y : Reg) (s : State) : Result := .next (s.skipIf (s.reg x == s.reg y))

/-- 9XY0: skip if V[x] ≠ V[y] (R106). -/
def execSneVxVy (x y : Reg) (s : State) : Result := .next (s.skipIf (s.reg x != s.reg y))

/-- BNNN: `PC <- zext_16(nnn) + V[0]`, or `+ V[nnn[11:8]]` when JUMP_OFFSET_VX (R107). -/
def execJpOff (nnn : Addr) (s : State) : Result := .next (s.setPc (s.offsetTarget nnn))

end Sys2Proof.Machine
end

