-- ==== Sys2Proof/Machine/Index.lean ====
section
/-! DEFINITION. The index register and the memory transfers. Every instruction here is sequential.
Spec: spec/43_index_memory.md R122 to R127. -/

namespace Sys2Proof.Machine

/-- ANNN: `I <- zext_16(nnn)` (R122). -/
def execLdI (nnn : Addr) (s : State) : Result := .next (s.setI (zext16 nnn)).advance

/-- FX1E: `I <- (I + V[x]) mod 65536`; VF is not written and nothing is raised (R123, D10). -/
def execAddIVx (x : Reg) (s : State) : Result := .next (s.setI (s.i + (s.reg x).setWidth 16)).advance

/-- FX29: `I <- FONT_BASE + 5 * (V[x] mod 16)` (R124). -/
def execLdFVx (x : Reg) (s : State) : Result := .next (s.setI (glyphAddress s.cfg (s.reg x))).advance

/-- FX33: the hundreds, tens and ones of V[x] to I, I+1, I+2 (R125). -/
def execLdBVx (x : Reg) (s : State) : Result :=
  withRange s.i.toNat 3 s (.next (s.store s.i.toNat (bcdDigits (s.reg x))).advance)

/-- FX55: V0..Vx to I..I+x; I is not changed (R126). -/
def execStRange (x : Reg) (s : State) : Result :=
  withRange s.i.toNat (x.val + 1) s (.next (s.store s.i.toNat (s.regsTo x)).advance)

/-- FX65: I..I+x to V0..Vx; I is not changed (R127). -/
def execLdRange (x : Reg) (s : State) : Result :=
  withRange s.i.toNat (x.val + 1) s (.next (s.loadRegs (s.bytes s.i.toNat (x.val + 1))).advance)

end Sys2Proof.Machine
end

