-- ==== Sys2Proof/Machine/Keys.lean ====
section
/-! DEFINITION. Keypad and timer-register instructions; none raises an error.
Spec: spec/45_keys_timers.md R133 to R138. -/

namespace Sys2Proof.Machine

/-- EX9E: skip if the key numbered V[x] mod 16 is down (R133). -/
def execSkp (x : Reg) (s : State) : Result := .next (s.skipIf (s.key (keyIndex (s.reg x))))

/-- EXA1: skip if the key numbered V[x] mod 16 is up (R134). -/
def execSknp (x : Reg) (s : State) : Result := .next (s.skipIf (!s.key (keyIndex (s.reg x))))

/-- FX07: `V[x] <- DT` (R135). -/
def execLdVxDt (x : Reg) (s : State) : Result := .next (s.setReg x s.dt).advance

/-- FX0A: `runstate <- WaitingForKey(x)`, PC is held at pc0 (R136). -/
def execLdVxK (x : Reg) (s : State) : Result := .next (s.setRunstate (.waitingForKey x))

/-- FX15: `DT <- V[x]` (R137). -/
def execLdDtVx (x : Reg) (s : State) : Result := .next (s.setDt (s.reg x)).advance

/-- FX18: `ST <- V[x]` (R138). -/
def execLdStVx (x : Reg) (s : State) : Result := .next (s.setSt (s.reg x)).advance

end Sys2Proof.Machine
end

