-- ==== Sys2Proof/Machine/Screen.lean ====
section
/-! DEFINITION. Display buffer writes and sprite collision. Both instructions are sequential.
Spec: spec/44_display.md R128 to R132. -/

namespace Sys2Proof.Machine

/-- A draw in progress: the buffer and whether a pixel went from 1 to 0 so far (R129 `hit`). -/
structure Canvas where
  disp : Display
  hit : Bool
deriving DecidableEq, Repr

/-- One sprite bit of 1 at (px, py): a clipped pixel is neither read nor written, a placed one is XORed and collides if
it was 1 (R129, R130, R131). -/
def Canvas.plot (wrap : Bool) (px py : Nat) (c : Canvas) : Canvas :=
  match place wrap px py with
  | .clipped => c
  | .cell x y => { disp := c.disp.setPixel x y (!c.disp.pixel x y), hit := c.hit || c.disp.pixel x y }

/-- One row of the sprite: bit 7 - c of the byte is column x0 + c (R129, decision D12). -/
def Canvas.plotRow (wrap : Bool) (x0 py : Nat) (row : Byte) (c : Canvas) : Canvas :=
  (List.range 8).foldl (fun acc k => if row.getLsbD (7 - k) then acc.plot wrap (x0 + k) py else acc) c

/-- The rows of the sprite from row py downwards (R129). -/
def Canvas.plotRows (wrap : Bool) (x0 py : Nat) (rows : List Byte) (c : Canvas) : Canvas :=
  match rows with
  | [] => c
  | row :: rest => Canvas.plotRows wrap x0 (py + 1) rest (c.plotRow wrap x0 py row)

/-- The draw of a list of rows at the start coordinates V[x], V[y] name. -/
def State.drawSprite (s : State) (x y : Reg) (rows : List Byte) : Canvas :=
  Canvas.plotRows s.cfg.wrapSprites (startColumn (s.reg x)) (startRow (s.reg y)) rows { disp := s.disp, hit := false }

/-- The buffer and then VF, "written once, after all pixels" (R131). -/
def State.commitDraw (s : State) (c : Canvas) : State := (s.setDisp c.disp).setReg vf (flagByte c.hit)

/-- 00E0: every pixel to 0 (R128). -/
def execCls (s : State) : Result := .next (s.setDisp Display.clear).advance

/-- DXYN: n rows read at I, drawn by XOR; VF is the collision (R129). With n = 0 no byte is read, so no bounds check
applies (R132). -/
def execDrw (x y : Reg) (n : Rows) (s : State) : Result :=
  if n.val = 0 then .next (s.commitDraw (s.drawSprite x y [])).advance
  else withRange s.i.toNat n.val s (.next (s.commitDraw (s.drawSprite x y (s.bytes s.i.toNat n.val))).advance)

end Sys2Proof.Machine
end

