-- ==== Sys2Proof/Machine/Cycle.lean ====
section
/-! DEFINITION. The actions of the core: step, tick, key down, key up and reset.
Spec: spec/40_step.md R87 to R99, spec/60_exceptions.md R150 to R154, spec/70_reset_and_hazards.md R163 to R166. -/

namespace Sys2Proof.Machine

/-- Decode the fetched word and execute it: the UNKNOWN word raises UnknownOpcode (R90, R99). -/
def execWord (w : Word) (s : State) : Result :=
  match decode w with
  | none => execUnknown w s
  | some i => exec i s

/-- The step action, `Step()` of R98. -/
def stepAction (s : State) : Result :=
  match s.runstate with
  | .halted _ => .next s
  | .waitingForKey _ => .next s
  | .running =>
    match s.fetch with
    | .error e => raise e s
    | .ok w => execWord w s

/-- "decrements … by 1 …, floored at 0" (R150). -/
def countDown (b : Byte) : Byte := if b.toNat > 0 then b - 1 else b

/-- The tick action, `Tick()` of R150: nothing in Halted (R151). -/
def tickAction (s : State) : State :=
  match s.runstate with
  | .halted _ => s
  | .running => (s.setDt (countDown s.dt)).setSt (countDown s.st)
  | .waitingForKey _ => (s.setDt (countDown s.dt)).setSt (countDown s.st)

/-- The key-up action (R153). -/
def keyUpAction (k : Key) (s : State) : State := s.setKey k false

/-- A key-down event completes a pending wait: "the pressed key's index is written to the target register and PC
advances normally" (R154). -/
def completeWait (x : Reg) (k : Key) (s : State) : State :=
  ((s.setReg x (BitVec.ofNat 8 k.val)).setPc (s.pc + 2)).setRunstate .running

/-- The key-down action, `KeyDown(k)` of R154; only an up-to-down change is an event (D15). -/
def keyDownAction (k : Key) (s : State) : State :=
  match s.runstate with
  | .waitingForKey x => if s.key k then s.setKey k true else completeWait x k (s.setKey k true)
  | .running => s.setKey k true
  | .halted _ => s.setKey k true

/-- The ROM image fits: not larger than 4096 − LOAD_ORIGIN bytes (R165). -/
def romFits (rom : List Byte) (cfg : Config) : Bool := rom.length ≤ 4096 - cfg.loadOrigin.toNat

/-- The machine state of `Reset(rom, config)` (R163): the ROM is placed verbatim after the font (R164, R166). The count of
draws and the host's further actions belong to no machine state of the spec and go on (log entry 13). -/
def freshState (rom : List Byte) (cfg : Config) (s : State) : State :=
  { (State.init cfg).store cfg.loadOrigin.toNat rom with draws := s.draws, pending := s.pending }

/-- The reset action, `Reset(rom, config)` of R163: an oversized ROM is rejected, "No machine state is built" (R165). -/
def resetAction (rom : List Byte) (cfg : Config) (s : State) : Result :=
  if romFits rom cfg then .next (freshState rom cfg s) else .refused .invalidRomSize

/-- One action of the host (R2, R157). -/
def act (a : Action) (s : State) : Result :=
  match a with
  | .step => stepAction s
  | .tick => .next (tickAction s)
  | .keyDown k => .next (keyDownAction k s)
  | .keyUp k => .next (keyUpAction k s)
  | .reset rom cfg => resetAction rom cfg s

/-- The host's next action: the oldest one due, or a step action when none is due (R148, R161, log entry 4). -/
def nextAction (s : State) : Result :=
  match s.pending with
  | [] => stepAction s
  | a :: rest => act a (s.setPending rest)

/-- A run of actions in the order the host fires them, stopping at the first refusal (R148, R161). -/
def runActions (as : List Action) (s : State) : Result :=
  match as with
  | [] => .next s
  | a :: rest =>
    match act a s with
    | .next t => runActions rest t
    | .fault r => .fault r
    | .refused r => .refused r

end Sys2Proof.Machine
end

