-- ==== Sys2Proof/Machine/Outputs.lean ====
section
/-! DEFINITION. What the host reads between actions: the display, the sound signal and the status. A read changes nothing.
The decode output of R157 is `describe` of Decode.lean.
Spec: spec/10_state.md R40, spec/60_exceptions.md R155, R156, R157. -/

namespace Sys2Proof.Machine

/-- `soundOn = (ST > 0)` (R40). -/
def State.soundOn (s : State) : Bool := s.st.toNat > 0

/-- The display output: the pixel at column x, row y (R155). -/
def State.pixel (s : State) (x : Fin 64) (y : Fin 32) : Bool := s.disp.pixel x y

/-- The hidden stack pointer, `length(stack)` (R28). -/
def State.sp (s : State) : Nat := s.stack.length

/-- The status output of R156. -/
structure Status where
  state : BitVec 2
  waitReg : BitVec 4
  errCode : BitVec 3
  errWord : Word
  errPC : Word
  errAddr : Word
deriving DecidableEq, Repr

/-- The status of a run state, field by field as R156 encodes it (decision D30). -/
def statusOf (r : RunState) : Status :=
  match r with
  | .running => ⟨0, 0, 0, 0, 0, 0⟩
  | .waitingForKey x => ⟨1, indexBits x, 0, 0, 0, 0⟩
  | .halted (.unknownOpcode w pc) => ⟨2, 0, 1, w, pc, 0⟩
  | .halted .stackOverflow => ⟨2, 0, 2, 0, 0, 0⟩
  | .halted .stackUnderflow => ⟨2, 0, 3, 0, 0, 0⟩
  | .halted (.outOfBounds a) => ⟨2, 0, 4, 0, 0, a⟩

/-- The status output (R156). -/
def State.status (s : State) : Status := statusOf s.runstate

end Sys2Proof.Machine
end

