-- ==== Sys2Proof/Machine/Step.lean ====
section
/-! DEFINITION. One step of the machine, and the state in which the next step runs a given instruction. -/

namespace Sys2Proof.Machine

/-- One step of the machine: the host's next action, which is a step action (R98) when no other action is due
(spec/60_exceptions.md R148 and R161; log entry 4). -/
def step (s : State) : Host.Outcome State Fault Refusal := nextAction s

/-- The state whose very next step fetches and runs the instruction with bits `w` (log entry 7). -/
def State.withFetchWord (s : State) (nbits w : Nat) : State := s.placeWord (tableWord nbits w)

end Sys2Proof.Machine
end

