-- ==== Sys2Proof/Safety.lean ====
section
/-! DEFINITION. What counts as a safe run, the invariant of the machine, and the vocabulary the statements use: what an
action leaves unchanged, which registers an instruction reads and writes, when an instruction breaches a rule, and which
pixels a sprite covers. Nothing here is used by the machine. -/

namespace Sys2Proof.Machine

/-! ## Safe states -/

/-- A state that has not met a fatal error: "Each breach is fatal" (spec/70_reset_and_hazards.md R170). -/
def State.alive (s : State) : Prop := ∀ e, s.runstate ≠ .halted e

/-- The error of an access to a..a+n-1 with n ≥ 1, said with the bound of spec/20_memory.md R50 and the recorded address
of R51. -/
def rangeBreach (a n : Nat) : Option ErrorRecord :=
  if a + n ≤ 0x1000 then none else some (.outOfBounds (BitVec.ofNat 16 (max a 0x1000)))

/-- The one check an instruction makes of its own (spec/60_exceptions.md R142 and R143). -/
def breach (i : Instr) (s : State) : Option ErrorRecord :=
  match i with
  | .call _ => if s.stack.length = 16 then some .stackOverflow else none
  | .ret => if s.stack = [] then some .stackUnderflow else none
  | .ldBVx _ => rangeBreach s.i.toNat 3
  | .stRange x | .ldRange x => rangeBreach s.i.toNat (x.val + 1)
  | .drw _ _ n => if n.val = 0 then none else rangeBreach s.i.toNat n.val
  | .cls | .jp _ | .seVxKk _ _ | .sneVxKk _ _ | .seVxVy _ _ | .ldVxKk _ _ | .addVxKk _ _ | .ldVxVy _ _
  | .orVxVy _ _ | .andVxVy _ _ | .xorVxVy _ _ | .addVxVy _ _ | .subVxVy _ _ | .shrVxVy _ _ | .subnVxVy _ _
  | .shlVxVy _ _ | .sneVxVy _ _ | .ldI _ | .jpOff _ | .rnd _ _ | .skp _ | .sknp _ | .ldVxDt _ | .ldVxK _
  | .ldDtVx _ | .ldStVx _ | .addIVx _ | .ldFVx _ => none

/-! ## The invariant -/

/-- What the rest of the state says when the core has halted with an error: the faulting step changed nothing else, and
nothing changes memory, stack or PC afterwards (spec/40_step.md R97, spec/60_exceptions.md R145). -/
def errorAgrees (s : State) (e : ErrorRecord) : Prop :=
  match e with
  | .unknownOpcode w pc => pc = s.pc ∧ pc.toNat ≤ 0xFFE ∧ w = s.word pc.toNat ∧ decode w = none
  | .stackOverflow => s.stack.length = 16
  | .stackUnderflow => s.stack = []
  | .outOfBounds a => 0x1000 ≤ a.toNat

/-- What the rest of the state says of the run state: while the core waits, PC is held on the FX0A that names the
waiting register (spec/45_keys_timers.md R136). -/
def runAgrees (s : State) : Prop :=
  match s.runstate with
  | .running => True
  | .waitingForKey x => s.pc.toNat ≤ 0xFFE ∧ decode (s.word s.pc.toNat) = some (.ldVxK x)
  | .halted e => errorAgrees s e

/-- The invariant every step keeps. -/
structure State.Inv (s : State) : Prop where
  /-- Memory is in its canonical form, inside 0x000..0xFFF (spec/20_memory.md R46). -/
  memory : Memory.wf s.cfg s.mem
  /-- At most 16 return addresses (spec/10_state.md R27). -/
  depth : s.stack.length ≤ 16
  /-- A return address is a CALL's `next`, so at most 0x1000 (spec/41_control.md R100). -/
  returns : ∀ w ∈ s.stack, w.toNat ≤ 0x1000
  /-- PC never exceeds 0x10FE and never wraps (spec/10_state.md R21). -/
  pcBound : s.pc.toNat ≤ 0x10FE
  /-- The run state agrees with the rest of the state. -/
  run : runAgrees s

/-! ## What is left unchanged -/

/-- The parts of the state an instruction may change, beside PC and the V registers. -/
inductive Part where
  | index | stack | delay | sound | memory | display | runstate | draws
deriving DecidableEq, Repr

/-- `t` is `s` but for PC, the registers listed in `regs` and the parts listed in `parts`: every other register, every
other part, the keypad, the configuration and the host's further actions are unchanged. Memory is compared byte by byte,
the display pixel by pixel. -/
structure Keeps (regs : List Reg) (parts : List Part) (s t : State) : Prop where
  register : ∀ r : Reg, r ∉ regs → t.reg r = s.reg r
  index : Part.index ∉ parts → t.i = s.i
  stack : Part.stack ∉ parts → t.stack = s.stack
  delay : Part.delay ∉ parts → t.dt = s.dt
  sound : Part.sound ∉ parts → t.st = s.st
  memory : Part.memory ∉ parts → ∀ a : Nat, t.byte a = s.byte a
  display : Part.display ∉ parts → ∀ (px : Fin 64) (py : Fin 32), t.pixel px py = s.pixel px py
  runstate : Part.runstate ∉ parts → t.runstate = s.runstate
  draws : Part.draws ∉ parts → t.draws = s.draws
  keys : ∀ k : Key, t.key k = s.key k
  cfg : t.cfg = s.cfg
  pending : t.pending = s.pending

/-- The state with the fatal error `e` and nothing else changed (spec/40_step.md R97). -/
def haltedWith (e : ErrorRecord) (s : State) : State := { s with runstate := .halted e }

/-! ## Registers an instruction uses -/

/-- The registers V0..Vx. -/
def regsUpTo (x : Reg) : List Reg := (List.finRange 16).filter (fun r => r.val ≤ x.val)

/-- The registers an instruction reads, the column `reads` of spec/10_state.md R18; the toggles choose among operands. -/
def readsRegs (cfg : Config) (i : Instr) : List Reg :=
  match i with
  | .seVxKk x _ | .sneVxKk x _ | .skp x | .sknp x | .ldDtVx x | .ldStVx x | .addIVx x | .ldFVx x | .ldBVx x
  | .addVxKk x _ => [x]
  | .seVxVy x y | .sneVxVy x y | .orVxVy x y | .andVxVy x y | .xorVxVy x y | .addVxVy x y | .subVxVy x y
  | .subnVxVy x y | .drw x y _ => [x, y]
  | .ldVxVy _ y => [y]
  | .shrVxVy x y | .shlVxVy x y => if cfg.shiftUsesVy then [y] else [x]
  | .jpOff nnn => if cfg.jumpOffsetVx then [Fin.ofNat 16 (nnn.toNat / 256)] else [0]
  | .stRange x => regsUpTo x
  | .ldVxKk _ _ | .rnd _ _ | .ldVxDt _ | .ldVxK _ | .ldRange _ | .cls | .ret | .jp _ | .call _ | .ldI _ => []

/-- The registers an instruction writes when it executes, the column `writes` of spec/10_state.md R18; FX0A writes Vx
only when a key completes the wait (spec/45_keys_timers.md R136). -/
def writesRegs (i : Instr) : List Reg :=
  match i with
  | .ldVxKk x _ | .rnd x _ | .ldVxDt x | .addVxKk x _ | .ldVxVy x _ | .orVxVy x _ | .andVxVy x _ | .xorVxVy x _ => [x]
  | .addVxVy x _ | .subVxVy x _ | .subnVxVy x _ | .shrVxVy x _ | .shlVxVy x _ => [x, vf]
  | .drw _ _ _ => [vf]
  | .ldRange x => regsUpTo x
  | .seVxKk _ _ | .sneVxKk _ _ | .seVxVy _ _ | .sneVxVy _ _ | .skp _ | .sknp _ | .ldDtVx _ | .ldStVx _ | .addIVx _
  | .ldFVx _ | .ldBVx _ | .stRange _ | .ldVxK _ | .jpOff _ | .cls | .ret | .jp _ | .call _ | .ldI _ => []

/-- The bytes an instruction stores to, as address and length (spec/20_memory.md R56). -/
def storedBytes (i : Instr) (s : State) : Nat × Nat :=
  match i with
  | .ldBVx _ => (s.i.toNat, 3)
  | .stRange x => (s.i.toNat, x.val + 1)
  | .cls | .ret | .jp _ | .call _ | .seVxKk _ _ | .sneVxKk _ _ | .seVxVy _ _ | .ldVxKk _ _ | .addVxKk _ _ | .ldVxVy _ _
  | .orVxVy _ _ | .andVxVy _ _ | .xorVxVy _ _ | .addVxVy _ _ | .subVxVy _ _ | .shrVxVy _ _ | .subnVxVy _ _
  | .shlVxVy _ _ | .sneVxVy _ _ | .ldI _ | .jpOff _ | .rnd _ _ | .drw _ _ _ | .skp _ | .sknp _ | .ldVxDt _ | .ldVxK _
  | .ldDtVx _ | .ldStVx _ | .addIVx _ | .ldFVx _ | .ldRange _ => (0, 0)

/-! ## The pixels of a sprite -/

/-- A sprite bit at column cx, row cy lands on the pixel (px, py): wrapped mod 64 and mod 32 with WRAP_SPRITES, and only
inside the grid without it (spec/44_display.md R130). -/
abbrev lands (wrap : Bool) (cx cy : Nat) (px : Fin 64) (py : Fin 32) : Prop :=
  if wrap then cx % 64 = px.val ∧ cy % 32 = py.val else cx = px.val ∧ cy = py.val

/-- Some bit of 1 of the n-row sprite at I, drawn from (V[x] mod 64, V[y] mod 32), lands on the pixel
(spec/44_display.md R129); bit 7 is the leftmost column (decision D12). -/
def spriteCovers (s : State) (x y : Reg) (n : Rows) (px : Fin 64) (py : Fin 32) : Prop :=
  ∃ r c : Nat, r < n.val ∧ c < 8 ∧ (s.byte (s.i.toNat + r)).getLsbD (7 - c) = true ∧
    lands s.cfg.wrapSprites ((s.reg x).toNat % 64 + c) ((s.reg y).toNat % 32 + r) px py

/-! ## Runs of actions -/

/-- An action other than a reset. -/
def notReset (a : Action) : Bool :=
  match a with
  | .reset _ _ => false
  | .step | .tick | .keyDown _ | .keyUp _ => true

/-- A step or a tick: the two clocks of the core, without the keypad (spec/60_exceptions.md R160). -/
def isClock (a : Action) : Bool :=
  match a with
  | .step | .tick => true
  | .keyDown _ | .keyUp _ | .reset _ _ => false

end Sys2Proof.Machine
end

