-- ==== Sys2Proof/Certificates/Slice0/Obligations.lean ====
section
/-! DEFINITION. The statements for the provers, one `def Obligations.<Name> : Prop` each, listed in OBLIGATIONS.json.
Each docstring names the rule of spec/ it formalises; where a statement rests on a decision of the spec (D<n> of
spec/92_eei_decisions.md) or on a choice of the model (a log entry), the docstring says so. -/

open Sys2Proof Sys2Proof.Machine

/-! ## Encoding -/

/-- Every instruction, with every operand value its encoding admits, decodes from its own word
(spec/30_encoding.md R70, R71; the property quoted in R82). The patterns are the spec's general knowledge (G1, G2). -/
def Obligations.DecodeOfEncodeIsTheInstruction : Prop :=
  ∀ i : Instr, decode (encode i) = some i

/-- Every word the decoder accepts is the word of the instruction it gives: no two words share one meaning, and no bit of
a word is dropped (spec/95_test_vectors.md L1.10). -/
def Obligations.EncodeOfDecodeIsTheWord : Prop :=
  ∀ (w : Word) (i : Instr), decode w = some i → encode i = w

/-- Words written out from the table of R71, one or more of each major nibble, with the instructions they stand for
(spec/95_test_vectors.md L2.1). The patterns but those of CLS and JP are the spec's general knowledge (G1, G2), and that the
last four words are UNKNOWN rests on decisions D5 and D6 (log entry 17). -/
def Obligations.SampleWordsDecodeAsTheTableSays : Prop :=
  decode 0x00E0 = some .cls ∧ decode 0x00EE = some .ret ∧ decode 0x1ABC = some (.jp 0xABC) ∧
  decode 0x2ABC = some (.call 0xABC) ∧ decode 0x3A7F = some (.seVxKk 0xA 0x7F) ∧
  decode 0x4A7F = some (.sneVxKk 0xA 0x7F) ∧ decode 0x7F01 = some (.addVxKk 0xF 0x01) ∧ decode 0x5120 = some (.seVxVy 1 2) ∧
  decode 0x6FFF = some (.ldVxKk 0xF 0xFF) ∧ decode 0x8125 = some (.subVxVy 1 2) ∧ decode 0x812E = some (.shlVxVy 1 2) ∧
  decode 0x9120 = some (.sneVxVy 1 2) ∧ decode 0xA123 = some (.ldI 0x123) ∧ decode 0xBABC = some (.jpOff 0xABC) ∧
  decode 0xC3FF = some (.rnd 3 0xFF) ∧ decode 0xD123 = some (.drw 1 2 3) ∧ decode 0xE19E = some (.skp 1) ∧
  decode 0xF133 = some (.ldBVx 1) ∧ decode 0xF165 = some (.ldRange 1) ∧
  decode 0x0000 = none ∧ decode 0x5121 = none ∧ decode 0x8128 = none ∧ decode 0xF0FF = none

/-- The descriptor slices all five fields from every word, "whatever the class", agrees with the fixed fields of its
class, and is UNKNOWN exactly for the words that are no instruction (R68, R69, R76; decisions D6, D31). -/
def Obligations.DescriptorSlicesEveryField : Prop :=
  ∀ w : Word,
    (describe w).x.val = w.toNat / 256 % 16 ∧ (describe w).y.val = w.toNat / 16 % 16 ∧
    (describe w).n.val = w.toNat % 16 ∧ (describe w).kk.toNat = w.toNat % 256 ∧
    (describe w).nnn.toNat = w.toNat % 4096 ∧ (describe w).wf = true ∧
    ((describe w).cls = .unknown ↔ decode w = none)

/-- The UNKNOWN words are exactly those of the table of R73 (derived there from R71; decisions D5, D6). -/
def Obligations.UnknownWordsAreTheTableOfR73 : Prop :=
  ∀ w : Word,
    decode w = none ↔
      (w.toNat / 4096 = 0x0 ∧ w.toNat ≠ 0x00E0 ∧ w.toNat ≠ 0x00EE) ∨
      (w.toNat / 4096 = 0x5 ∧ w.toNat % 16 ≠ 0) ∨
      (w.toNat / 4096 = 0x8 ∧ 8 ≤ w.toNat % 16 ∧ w.toNat % 16 ≠ 0xE) ∨
      (w.toNat / 4096 = 0x9 ∧ w.toNat % 16 ≠ 0) ∨
      (w.toNat / 4096 = 0xE ∧ w.toNat % 256 ≠ 0x9E ∧ w.toNat % 256 ≠ 0xA1) ∨
      (w.toNat / 4096 = 0xF ∧ w.toNat % 256 ∉ [0x07, 0x0A, 0x15, 0x18, 0x1E, 0x29, 0x33, 0x55, 0x65])

/-- An instruction's bytes, big-endian, followed by any bytes decode to it and leave exactly those bytes: "the next
instruction always starts 2 bytes later" (R65, R66). -/
def Obligations.DecodeConsumesTwoBytes : Prop :=
  ∀ (i : Instr) (rest : List Byte),
    (∃ hi lo, encodeBytes i = [hi, lo] ∧ (encode i).toNat = hi.toNat * 256 + lo.toNat) ∧
    decodeBytes (encodeBytes i ++ rest) = .ok (i, rest)

/-! ## The step -/

/-- When no other action is due and the core is Running, and the big-endian word at PC decodes to an instruction, the
machine's step is `exec` of that instruction at that same state: the meaning itself moves PC past its word (R90, R91, R98).
That the step looks at `pending` first is the model's (log entry 4). -/
def Obligations.StepRunsTheDecodedInstruction : Prop :=
  ∀ (s : State) (i : Instr),
    s.pending = [] → s.runstate = .running → s.pc.toNat + 1 ≤ 0xFFF →
    decode (s.byte s.pc.toNat ++ s.byte (s.pc.toNat + 1)) = some i → step s = exec i s

/-- A Running step whose fetch leaves memory halts with the lowest out-of-range address and changes nothing else; every
other Running step decodes the big-endian word at PC, and executing UNKNOWN halts with the word and its fetch address
(R54, R89, R97, R99, R143; decisions D18, D20, D21). -/
def Obligations.RunningStepFetchesThenDecodes : Prop :=
  ∀ s : State, s.runstate = .running →
    (0xFFF < s.pc.toNat + 1 →
      stepAction s = .next (haltedWith (.outOfBounds (if s.pc.toNat < 0x1000 then 0x1000 else s.pc)) s)) ∧
    (s.pc.toNat + 1 ≤ 0xFFF →
      ∀ w : Word, w = s.byte s.pc.toNat ++ s.byte (s.pc.toNat + 1) →
        (decode w = none → stepAction s = .next (haltedWith (.unknownOpcode w s.pc) s)) ∧
        (∀ i, decode w = some i → stepAction s = exec i s))

/-- "A step action in any other run state changes nothing" (R88), in Halted and in WaitingForKey; and of the actions of one
run only a key-down ends the wait (a reset begins a new run). -/
def Obligations.StepOutsideRunningChangesNothing : Prop :=
  ∀ s : State,
    (∀ e, s.runstate = .halted e → stepAction s = .next s) ∧
    (∀ x, s.runstate = .waitingForKey x → stepAction s = .next s ∧
      ∀ a t, notReset a = true → act a s = .next t → t.runstate ≠ s.runstate → ∃ k, a = .keyDown k)

/-- The machine's step performs the oldest action the host has due, and a step action when none is due; with no reset due
it always answers a next state, and it refuses only an oversized ROM. The `pending` list is the model's own (log entry 4);
the actions are those of R2 and R157, the rejection is that of R165. -/
def Obligations.StepPerformsTheHostsNextAction : Prop :=
  ∀ s : State,
    (s.pending = [] → step s = stepAction s) ∧
    (∀ a rest, s.pending = a :: rest → step s = act a { s with pending := rest }) ∧
    ((∃ t, step s = .next t) ∨
      (∃ rom cfg rest, s.pending = .reset rom cfg :: rest ∧ rom.length > 4096 - cfg.loadOrigin.toNat ∧
        step s = .refused .invalidRomSize))

/-! ## Fatal errors -/

/-- An instruction halts the core exactly when it makes the breach the table of R142 gives it, with the error recorded
there and nothing else changed (R97); without a breach it answers a next state that is not newly halted. So every
instruction answers a next state in every state (decisions D18, D20, D21). -/
def Obligations.ExecHaltsExactlyOnABreach : Prop :=
  ∀ (i : Instr) (s : State),
    (∀ e, breach i s = some e → exec i s = .next (haltedWith e s)) ∧
    (breach i s = none → ∃ t, exec i s = .next t ∧ (s.alive → t.alive))

/-- From Halted, any run of host actions without a reset ends in a next state that has the same error and changes at most
the keypad: steps and ticks have no effect, key actions set key states only (R145, R151; decisions D24, D34). -/
def Obligations.HaltedIsTerminal : Prop :=
  ∀ (as : List Action) (s : State) (e : ErrorRecord),
    s.runstate = .halted e → as.all notReset = true →
      ∃ t, runActions as s = .next t ∧ t = { s with keys := t.keys }

/-! ## Control transfer -/

/-- RET pops the top of the stack into PC; on an empty stack it halts with StackUnderflow and changes nothing else (R100). -/
def Obligations.ReturnPopsTheTopIntoPc : Prop :=
  ∀ s : State,
    (∀ below top, s.stack = below ++ [top] →
      ∃ t, exec .ret s = .next t ∧ t.pc = top ∧ t.stack = below ∧ Keeps [] [.stack] s t) ∧
    (s.stack = [] → exec .ret s = .next (haltedWith .stackUnderflow s))

/-- JP sets PC to its zero-extended target and changes nothing else; a jump to its own address is a self-loop that leaves
the whole state alone (R101). That nothing is raised at the jump and a target of 0xFFF faults at the next fetch with address
0x1000 rests on decisions D19 (preamble of spec/41_control.md) and D20 (log entry 17). -/
def Obligations.JumpSetsPc : Prop :=
  ∀ (nnn : Addr) (s : State),
    (encode (.jp nnn)).toNat = 0x1000 + nnn.toNat ∧
    (∃ t, exec (.jp nnn) s = .next t ∧ t.pc.toNat = nnn.toNat ∧ Keeps [] [] s t ∧
      (nnn = 0xFFF → s.runstate = .running →
        ∃ u, stepAction t = .next u ∧ u.runstate = .halted (.outOfBounds 0x1000))) ∧
    (nnn.toNat = s.pc.toNat → exec (.jp nnn) s = .next s)

/-- CALL pushes the address of the word after it and sets PC to its target; with 16 entries it halts with StackOverflow
and changes nothing else (R102; that `next` is what is pushed is the spec's general knowledge G11). -/
def Obligations.CallPushesTheNextAddress : Prop :=
  ∀ (nnn : Addr) (s : State),
    (s.stack.length ≠ 16 →
      ∃ t, exec (.call nnn) s = .next t ∧ t.pc.toNat = nnn.toNat ∧ t.stack = s.stack ++ [s.pc + 2] ∧ Keeps [] [.stack] s t) ∧
    (s.stack.length = 16 → exec (.call nnn) s = .next (haltedWith .stackOverflow s))

/-- Each conditional skip passes over exactly one word when its condition holds, goes on to the next word otherwise, and
changes PC alone (R93, R103 to R106; the polarities are the spec's general knowledge G13, the distance G10). -/
def Obligations.RegisterSkipsMovePcByTwoOrFour : Prop :=
  ∀ (x y : Reg) (kk : Byte) (s : State),
    (∃ t, exec (.seVxKk x kk) s = .next t ∧ t.pc = s.pc + (if s.reg x = kk then 4 else 2) ∧ Keeps [] [] s t) ∧
    (∃ t, exec (.sneVxKk x kk) s = .next t ∧ t.pc = s.pc + (if s.reg x = kk then 2 else 4) ∧ Keeps [] [] s t) ∧
    (∃ t, exec (.seVxVy x y) s = .next t ∧ t.pc = s.pc + (if s.reg x = s.reg y then 4 else 2) ∧ Keeps [] [] s t) ∧
    (∃ t, exec (.sneVxVy x y) s = .next t ∧ t.pc = s.pc + (if s.reg x = s.reg y then 2 else 4) ∧ Keeps [] [] s t)

/-- The key skips test the key numbered by the low nibble of Vx (R133, R134; decision D13, polarities G13). -/
def Obligations.KeySkipsTestTheLowNibblesKey : Prop :=
  ∀ (x : Reg) (k : Key) (s : State), k.val = (s.reg x).toNat % 16 →
    (∃ t, exec (.skp x) s = .next t ∧ t.pc = s.pc + (if s.key k = true then 4 else 2) ∧ Keeps [] [] s t) ∧
    (∃ t, exec (.sknp x) s = .next t ∧ t.pc = s.pc + (if s.key k = true then 2 else 4) ∧ Keeps [] [] s t)

/-- BNNN jumps to nnn plus V0, or plus V[nnn[11:8]] when JUMP_OFFSET_VX; the sum never wraps (R107; the toggle is OPEN,
decision D27, and the two variants are the spec's general knowledge G6). -/
def Obligations.JumpWithOffsetAddsTheChosenRegister : Prop :=
  ∀ (nnn : Addr) (x : Reg) (s : State), x.val = nnn.toNat / 256 →
    ∃ t, exec (.jpOff nnn) s = .next t ∧
      t.pc.toNat = nnn.toNat + (if s.cfg.jumpOffsetVx = true then (s.reg x).toNat else (s.reg 0).toNat) ∧ Keeps [] [] s t

/-! ## Register ALU -/

/-- The plain register writes: 6XKK sets Vx to the immediate, 8XY0 copies Vy; PC goes to the next word and nothing else
changes, with x = 15 too (R109, R111; general knowledge G1, G8). -/
def Obligations.LoadsSetOneRegister : Prop :=
  ∀ (x y : Reg) (kk : Byte) (s : State),
    (∃ t, exec (.ldVxKk x kk) s = .next t ∧ t.reg x = kk ∧ t.pc = s.pc + 2 ∧ Keeps [x] [] s t) ∧
    (∃ t, exec (.ldVxVy x y) s = .next t ∧ t.reg x = s.reg y ∧ t.pc = s.pc + 2 ∧ Keeps [x] [] s t)

/-- 7XKK adds mod 256 and sets no flag: VF keeps its value unless x = 15 (R110). -/
def Obligations.AddImmediateWrapsAndSetsNoFlag : Prop :=
  ∀ (x : Reg) (kk : Byte) (s : State),
    ∃ t, exec (.addVxKk x kk) s = .next t ∧ (t.reg x).toNat = ((s.reg x).toNat + kk.toNat) % 256 ∧ t.pc = s.pc + 2 ∧
      Keeps [x] [] s t

/-- OR, AND and XOR work bit by bit and leave VF alone unless x = 15 (R112 to R114; decision D7). -/
def Obligations.BitwiseOperationsLeaveVfAlone : Prop :=
  ∀ (x y : Reg) (s : State),
    (∃ t, exec (.orVxVy x y) s = .next t ∧ t.pc = s.pc + 2 ∧ Keeps [x] [] s t ∧
      ∀ k, (t.reg x).getLsbD k = ((s.reg x).getLsbD k || (s.reg y).getLsbD k)) ∧
    (∃ t, exec (.andVxVy x y) s = .next t ∧ t.pc = s.pc + 2 ∧ Keeps [x] [] s t ∧
      ∀ k, (t.reg x).getLsbD k = ((s.reg x).getLsbD k && (s.reg y).getLsbD k)) ∧
    (∃ t, exec (.xorVxVy x y) s = .next t ∧ t.pc = s.pc + 2 ∧ Keeps [x] [] s t ∧
      ∀ k, (t.reg x).getLsbD k = ((s.reg x).getLsbD k != (s.reg y).getLsbD k))

/-- ADD Vx, Vy: the sum mod 256 in Vx unless x = 15, and VF = 1 iff a + b > 255, with a and b read before any write (R115;
that the flag survives with x = 15 is decision D9). -/
def Obligations.AddSetsCarry : Prop :=
  ∀ (x y : Reg) (s : State),
    ∃ t, exec (.addVxVy x y) s = .next t ∧ t.pc = s.pc + 2 ∧ Keeps [x, vf] [] s t ∧
      (x ≠ vf → (t.reg x).toNat = ((s.reg x).toNat + (s.reg y).toNat) % 256) ∧
      t.reg vf = (if (s.reg x).toNat + (s.reg y).toNat > 255 then 1 else 0)

/-- SUB Vx, Vy: a − b mod 256 in Vx unless x = 15, and VF = 1 iff a ≥ b (R116; decision D9 for x = 15). -/
def Obligations.SubtractSetsNoBorrow : Prop :=
  ∀ (x y : Reg) (s : State),
    ∃ t, exec (.subVxVy x y) s = .next t ∧ t.pc = s.pc + 2 ∧ Keeps [x, vf] [] s t ∧
      (x ≠ vf → (t.reg x).toNat = ((s.reg x).toNat + 256 - (s.reg y).toNat) % 256) ∧
      t.reg vf = (if (s.reg x).toNat ≥ (s.reg y).toNat then 1 else 0)

/-- SUBN Vx, Vy: b − a mod 256 in Vx unless x = 15, and VF = 1 iff b ≥ a (R118; decisions D8, D9, general knowledge G7). -/
def Obligations.ReverseSubtractSetsNoBorrow : Prop :=
  ∀ (x y : Reg) (s : State),
    ∃ t, exec (.subnVxVy x y) s = .next t ∧ t.pc = s.pc + 2 ∧ Keeps [x, vf] [] s t ∧
      (x ≠ vf → (t.reg x).toNat = ((s.reg y).toNat + 256 - (s.reg x).toNat) % 256) ∧
      t.reg vf = (if (s.reg y).toNat ≥ (s.reg x).toNat then 1 else 0)

/-- The shifts move the source by one bit and put the bit shifted out in VF; the source is Vy when SHIFT_USES_VY and Vx
otherwise (R117, R119; the toggle is OPEN, decision D26, general knowledge G5; decision D9 for x = 15). -/
def Obligations.ShiftsMoveTheBitOutIntoVf : Prop :=
  ∀ (x y : Reg) (src : Byte) (s : State), src = (if s.cfg.shiftUsesVy = true then s.reg y else s.reg x) →
    (∃ t, exec (.shrVxVy x y) s = .next t ∧ t.pc = s.pc + 2 ∧ Keeps [x, vf] [] s t ∧
      (x ≠ vf → (t.reg x).toNat = src.toNat / 2) ∧ (t.reg vf).toNat = src.toNat % 2) ∧
    (∃ t, exec (.shlVxVy x y) s = .next t ∧ t.pc = s.pc + 2 ∧ Keeps [x, vf] [] s t ∧
      (x ≠ vf → (t.reg x).toNat = 2 * src.toNat % 256) ∧ (t.reg vf).toNat = src.toNat / 128)

/-- Register arithmetic is exact mod 256, with carry `a + b > 255` and no-borrow `a ≥ b`, and the shifts are 2a mod 256
and floor(a / 2) (R108); said for a destination other than VF and a shift with both operands the same register, so that no
toggle and no decision enters. -/
def Obligations.RegisterArithmeticWrapsModulo256 : Prop :=
  ∀ (x y : Reg) (s : State), x ≠ vf →
    (∃ t, exec (.addVxVy x y) s = .next t ∧ (t.reg x).toNat = ((s.reg x).toNat + (s.reg y).toNat) % 256 ∧
      (t.reg vf = 1 ↔ (s.reg x).toNat + (s.reg y).toNat > 255)) ∧
    (∃ t, exec (.subVxVy x y) s = .next t ∧
      ((t.reg x).toNat : Int) = ((s.reg x).toNat - (s.reg y).toNat : Int) % 256 ∧
      (t.reg vf = 1 ↔ (s.reg x).toNat ≥ (s.reg y).toNat)) ∧
    (∃ t, exec (.shlVxVy x x) s = .next t ∧ (t.reg x).toNat = 2 * (s.reg x).toNat % 256) ∧
    (∃ t, exec (.shrVxVy x x) s = .next t ∧ (t.reg x).toNat = (s.reg x).toNat / 2)

/-- A flag-producing ALU instruction whose destination is VF leaves the flag there, and the result is lost, whatever Y is
and whichever operand SHIFT_USES_VY makes the source of a shift (R96, R117 to R119, R121; decisions D8, D9, D26). -/
def Obligations.FlagSurvivesWhenVfIsTheDestination : Prop :=
  ∀ (y : Reg) (s : State),
    (∃ t, exec (.addVxVy vf y) s = .next t ∧ t.reg vf = (if (s.reg vf).toNat + (s.reg y).toNat > 255 then 1 else 0)) ∧
    (∃ t, exec (.subVxVy vf y) s = .next t ∧ t.reg vf = (if (s.reg vf).toNat ≥ (s.reg y).toNat then 1 else 0)) ∧
    (∃ t, exec (.subnVxVy vf y) s = .next t ∧ t.reg vf = (if (s.reg y).toNat ≥ (s.reg vf).toNat then 1 else 0)) ∧
    (∃ t, exec (.shrVxVy vf y) s = .next t ∧
      (t.reg vf).toNat = (if s.cfg.shiftUsesVy = true then s.reg y else s.reg vf).toNat % 2) ∧
    (∃ t, exec (.shlVxVy vf y) s = .next t ∧
      (t.reg vf).toNat = (if s.cfg.shiftUsesVy = true then s.reg y else s.reg vf).toNat / 128)

/-- RND masks whatever byte is drawn with kk, uses up that draw, and so never exceeds the mask's bits; the draw is free
(R120; decision D22, log entry 3), so the statement holds for every value `r` it may have. -/
def Obligations.RandomMasksTheDraw : Prop :=
  ∀ (x : Reg) (kk r : Byte) (s : State), r = Config.rnd8 s.draws →
    ∃ t, exec (.rnd x kk) s = .next t ∧ t.pc = s.pc + 2 ∧ t.draws = s.draws + 1 ∧ Keeps [x] [.draws] s t ∧
      (∀ k, (t.reg x).getLsbD k = (r.getLsbD k && kk.getLsbD k)) ∧ (kk = 0 → t.reg x = 0) ∧ (t.reg x).toNat ≤ kk.toNat

/-! ## Index register and memory -/

/-- ANNN sets I to the zero-extended address and changes no flag (R122).
That the word is ANNN is the spec's general knowledge G1 (log entry 17, PRESUMED). -/
def Obligations.LoadIndexSetsI : Prop :=
  ∀ (nnn : Addr) (s : State),
    (encode (.ldI nnn)).toNat = 0xA000 + nnn.toNat ∧
    ∃ t, exec (.ldI nnn) s = .next t ∧ t.i.toNat = nnn.toNat ∧ t.i.toNat ≤ 0xFFF ∧ t.pc = s.pc + 2 ∧ Keeps [] [.index] s t

/-- FX1E adds mod 65536 and writes no flag; FX29 points I at the glyph of the low nibble of Vx (R123, R124; decisions D3,
D10, D14). -/
def Obligations.IndexArithmeticWritesNoFlag : Prop :=
  ∀ (x : Reg) (s : State),
    (∃ t, exec (.addIVx x) s = .next t ∧ t.i.toNat = (s.i.toNat + (s.reg x).toNat) % 65536 ∧ t.pc = s.pc + 2 ∧
      Keeps [] [.index] s t) ∧
    (∃ t, exec (.ldFVx x) s = .next t ∧ t.i.toNat = s.cfg.fontBase.toNat + 5 * ((s.reg x).toNat % 16) ∧ t.pc = s.pc + 2 ∧
      Keeps [] [.index] s t)

/-- FX33 stores the hundreds, tens and ones of Vx at I, I+1, I+2, digits 0 to 9, and every other byte and every other part
of the state but PC is unchanged; past 0xFFF it halts and changes nothing else (R125; the digit order is G12). -/
def Obligations.BcdStoresThreeDigits : Prop :=
  ∀ (x : Reg) (s : State),
    (s.i.toNat + 2 ≤ 0xFFF →
      ∃ t, exec (.ldBVx x) s = .next t ∧ t.pc = s.pc + 2 ∧ Keeps [] [.memory] s t ∧
        100 * (t.byte s.i.toNat).toNat + 10 * (t.byte (s.i.toNat + 1)).toNat + (t.byte (s.i.toNat + 2)).toNat
          = (s.reg x).toNat ∧
        (t.byte s.i.toNat).toNat ≤ 9 ∧ (t.byte (s.i.toNat + 1)).toNat ≤ 9 ∧ (t.byte (s.i.toNat + 2)).toNat ≤ 9 ∧
        ∀ a, (a < s.i.toNat ∨ s.i.toNat + 3 ≤ a) → t.byte a = s.byte a) ∧
    (s.i.toNat + 2 > 0xFFF →
      exec (.ldBVx x) s = .next (haltedWith (.outOfBounds (if s.i.toNat < 0x1000 then 0x1000 else s.i)) s))

/-- FX55 stores V0..Vx at I..I+x, leaves I alone, and every other byte and every other part of the state but PC is
unchanged; past 0xFFF it halts with max(I, 0x1000) and nothing is written (R126).
That V[i] goes to I + i is the spec's own reading ("this spec reads that as V[i] to I + i"), the recorded address decision D20,
and that the word is FX55 general knowledge G1 (log entry 17, PRESUMED). -/
def Obligations.StoreRangeWritesTheRegisters : Prop :=
  ∀ (x : Reg) (s : State),
    (encode (.stRange x)).toNat = 0xF055 + 256 * x.val ∧
    (s.i.toNat + x.val ≤ 0xFFF →
      ∃ t, exec (.stRange x) s = .next t ∧ t.pc = s.pc + 2 ∧ Keeps [] [.memory] s t ∧
        (∀ r : Reg, r.val ≤ x.val → t.byte (s.i.toNat + r.val) = s.reg r) ∧
        ∀ a, (a < s.i.toNat ∨ s.i.toNat + x.val < a) → t.byte a = s.byte a) ∧
    (s.i.toNat + x.val > 0xFFF →
      ∃ t, exec (.stRange x) s = .next t ∧ Keeps [] [.runstate] s t ∧
        t.runstate = .halted (.outOfBounds (if s.i.toNat < 0x1000 then 0x1000 else s.i)))

/-- FX65 loads V0..Vx from I..I+x, VF too when x = 15, leaves the registers above x, I and memory alone; past 0xFFF it
halts with max(I, 0x1000) and no register is written (R127).
The recorded address is decision D20, and that the word is FX65 is the spec's general knowledge G1 (log entry 17,
PRESUMED). -/
def Obligations.LoadRangeReadsTheRegisters : Prop :=
  ∀ (x : Reg) (s : State),
    (encode (.ldRange x)).toNat = 0xF065 + 256 * x.val ∧
    (s.i.toNat + x.val ≤ 0xFFF →
      ∃ t, exec (.ldRange x) s = .next t ∧ t.pc = s.pc + 2 ∧ Keeps (regsUpTo x) [] s t ∧
        (∀ r : Reg, r.val ≤ x.val → t.reg r = s.byte (s.i.toNat + r.val)) ∧
        ∀ r : Reg, x.val < r.val → t.reg r = s.reg r) ∧
    (s.i.toNat + x.val > 0xFFF →
      ∃ t, exec (.ldRange x) s = .next t ∧ Keeps [] [.runstate] s t ∧
        t.runstate = .halted (.outOfBounds (if s.i.toNat < 0x1000 then 0x1000 else s.i)))

/-! ## Display -/

/-- CLS sets every pixel to 0 and changes nothing else but PC (R128). -/
def Obligations.ClearScreenClearsEveryPixel : Prop :=
  ∀ s : State,
    (encode .cls).toNat = 0x00E0 ∧
    ∃ t, exec .cls s = .next t ∧ (∀ px py, t.pixel px py = false) ∧ t.pc = s.pc + 2 ∧ Keeps [] [.display] s t

/-- DRW flips exactly the pixels that a sprite bit of 1 lands on, wherever the sprite stands and with wrapping or clipping,
and changes nothing but the display, VF and PC (R129, R130; decisions D12, D35). -/
def Obligations.DrawFlipsExactlyTheCoveredPixels : Prop :=
  ∀ (x y : Reg) (n : Rows) (s : State), n.val = 0 ∨ s.i.toNat + n.val ≤ 0x1000 →
    ∃ t, exec (.drw x y n) s = .next t ∧ t.pc = s.pc + 2 ∧ Keeps [vf] [.display] s t ∧
      ∀ px py, (spriteCovers s x y n px py → t.pixel px py = !s.pixel px py) ∧
        (¬ spriteCovers s x y n px py → t.pixel px py = s.pixel px py)

/-- The collision flag: VF is 1 iff some pixel that was 1 is 0 after the draw, that is iff a sprite bit of 1 lands on a
pixel that is already 1, and 0 otherwise, whatever VF held before (R131; the height 0 and the bit order are decisions D11
and D12). -/
def Obligations.CollisionFlagMeansAPixelWasCleared : Prop :=
  ∀ (x y : Reg) (n : Rows) (s : State), n.val = 0 ∨ s.i.toNat + n.val ≤ 0x1000 →
    ∃ t, exec (.drw x y n) s = .next t ∧ (t.reg vf = 0 ∨ t.reg vf = 1) ∧
      (t.reg vf = 1 ↔ ∃ px py, s.pixel px py = true ∧ t.pixel px py = false) ∧
      (t.reg vf = 1 ↔ ∃ px py, spriteCovers s x y n px py ∧ s.pixel px py = true) ∧
      ∀ px py, ¬ spriteCovers s x y n px py → t.pixel px py = s.pixel px py

/-- DRW with n = 0 draws nothing and sets VF = 0, even with I above 0xFFF; with n > 0 a sprite read past 0xFFF halts and
changes nothing else (R129, R132; decision D11, conflict C1). -/
def Obligations.DrawHeightZeroAndOutOfRange : Prop :=
  ∀ (x y : Reg) (n : Rows) (s : State),
    (∃ t, exec (.drw x y 0) s = .next t ∧ t.reg vf = 0 ∧ t.pc = s.pc + 2 ∧ Keeps [vf] [] s t) ∧
    (n.val > 0 → s.i.toNat + n.val - 1 > 0xFFF →
      exec (.drw x y n) s = .next (haltedWith (.outOfBounds (if s.i.toNat < 0x1000 then 0x1000 else s.i)) s))

/-! ## Timers and keys -/

/-- FX07 reads DT into Vx, VF as a plain register, and changes nothing else but PC (R135).
That the word is FX07 is the spec's general knowledge G1 (log entry 17, PRESUMED). -/
def Obligations.ReadDelayTimer : Prop :=
  ∀ (x : Reg) (s : State),
    (encode (.ldVxDt x)).toNat = 0xF007 + 256 * x.val ∧
    ∃ t, exec (.ldVxDt x) s = .next t ∧ t.reg x = s.dt ∧ t.pc = s.pc + 2 ∧ Keeps [x] [] s t

/-- FX15 sets DT and FX18 sets ST from Vx; each changes nothing else but PC, FX18 turns the sound signal on exactly when
Vx > 0, and n ticks later the count is Vx − n, floored at 0, with the sound off from Vx ticks on (R137, R138; the ticks
R150). That the words are FX15 and FX18 is the spec's general knowledge G1 (log entry 17, PRESUMED). -/
def Obligations.SetTimersFromRegister : Prop :=
  ∀ (x : Reg) (s : State),
    ((encode (.ldDtVx x)).toNat = 0xF015 + 256 * x.val ∧
      ∃ t, exec (.ldDtVx x) s = .next t ∧ t.dt = s.reg x ∧ t.pc = s.pc + 2 ∧ Keeps [] [.delay] s t ∧
        (s.alive → ∀ n, ∃ u, runActions (List.replicate n .tick) t = .next u ∧ u.dt.toNat = (s.reg x).toNat - n)) ∧
    ((encode (.ldStVx x)).toNat = 0xF018 + 256 * x.val ∧
      ∃ t, exec (.ldStVx x) s = .next t ∧ t.st = s.reg x ∧ t.pc = s.pc + 2 ∧ Keeps [] [.sound] s t ∧
        (t.soundOn = true ↔ (s.reg x).toNat > 0) ∧
        (s.alive → ∀ n, ∃ u, runActions (List.replicate n .tick) t = .next u ∧ u.st.toNat = (s.reg x).toNat - n ∧
          (u.soundOn = true ↔ n < (s.reg x).toNat)))

/-- FX0A enters WaitingForKey(x) and holds PC; Vx is not written. A later KeyDown of a key that is up writes the key's
index to Vx, advances PC by exactly 2 and resumes; of a key already down it completes nothing (R136, R154; decision D15,
conflicts C2, C7). -/
def Obligations.WaitForKeyHoldsUntilAKeyDownEvent : Prop :=
  ∀ (x : Reg) (k : Key) (s : State),
    ∃ t, exec (.ldVxK x) s = .next t ∧ t.runstate = .waitingForKey x ∧ t.pc = s.pc ∧ Keeps [] [.runstate] s t ∧
      (s.key k = true → act (.keyDown k) t = .next t) ∧
      (s.key k = false →
        ∃ u, act (.keyDown k) t = .next u ∧ u.runstate = .running ∧ (u.reg x).toNat = k.val ∧ u.pc = s.pc + 2 ∧
          (∀ r, r ≠ x → u.reg r = s.reg r) ∧ (∀ q, u.key q = (s.key q || q == k)) ∧ u.mem = s.mem ∧ u.stack = s.stack ∧
          u.i = s.i ∧ u.dt = s.dt ∧ u.st = s.st ∧ u.disp = s.disp)

/-- KeyUp clears its key and changes nothing else in any run state; KeyDown in Running and in Halted sets its key and
changes nothing else (R153, R154; decisions D15, D32). -/
def Obligations.KeyActionsSetKeyStates : Prop :=
  ∀ (k : Key) (s : State),
    (∃ t, act (.keyUp k) s = .next t ∧ (∀ q, t.key q = (s.key q && q != k)) ∧ t = { s with keys := t.keys }) ∧
    ((∀ x, s.runstate ≠ .waitingForKey x) →
      ∃ t, act (.keyDown k) s = .next t ∧ (∀ q, t.key q = (s.key q || q == k)) ∧ t = { s with keys := t.keys })

/-- The tick action decrements DT and ST by one each, floored at 0, in Running and in WaitingForKey, changes nothing else,
and does nothing in Halted (R150; that last clause is decision D24, R151, conflict C6, log entry 17). -/
def Obligations.TickDecrementsBothTimers : Prop :=
  ∀ s : State,
    (s.alive → ∃ t, act .tick s = .next t ∧ t.dt.toNat = s.dt.toNat - 1 ∧ t.st.toNat = s.st.toNat - 1 ∧
      t = { s with dt := t.dt, st := t.st }) ∧
    (¬ s.alive → act .tick s = .next s)

/-- While the core waits for a key, any run of steps and ticks in any order leaves it waiting with everything but the
timers unchanged, and each timer has lost one for each tick, floored at 0: steps do not affect the count (R88, R139, R151,
R160; decision D24). -/
def Obligations.OnlyTicksCountWhileWaiting : Prop :=
  ∀ (as : List Action) (s : State) (x : Reg),
    s.runstate = .waitingForKey x → as.all isClock = true →
      ∃ t, runActions as s = .next t ∧ t.dt.toNat = s.dt.toNat - as.count .tick ∧
        t.st.toNat = s.st.toNat - as.count .tick ∧ t = { s with dt := t.dt, st := t.st }

/-- The status output encodes the run state as the table of R156 (decision D30), each field 0 in the run states that do not
use it, and the sound signal is ST > 0 (R40). -/
def Obligations.OutputsReadTheState : Prop :=
  ∀ s : State,
    (s.soundOn = true ↔ s.st.toNat > 0) ∧
    (s.status.state = 0 ↔ s.runstate = .running) ∧
    (s.status.state = 1 ↔ ∃ x, s.runstate = .waitingForKey x ∧ s.status.waitReg.toNat = x.val) ∧
    (s.status.state = 2 ↔ ∃ e, s.runstate = .halted e) ∧
    (s.status.errCode = 1 ↔ s.runstate = .halted (.unknownOpcode s.status.errWord s.status.errPC)) ∧
    (s.status.errCode = 2 ↔ s.runstate = .halted .stackOverflow) ∧
    (s.status.errCode = 3 ↔ s.runstate = .halted .stackUnderflow) ∧
    (s.status.errCode = 4 ↔ s.runstate = .halted (.outOfBounds s.status.errAddr)) ∧
    (s.status.errCode = 0 ↔ s.alive) ∧ s.status.errCode.toNat ≤ 4 ∧
    ((∀ x, s.runstate ≠ .waitingForKey x) → s.status.waitReg = 0) ∧
    ((∀ w pc, s.runstate ≠ .halted (.unknownOpcode w pc)) → s.status.errWord = 0 ∧ s.status.errPC = 0) ∧
    ((∀ a, s.runstate ≠ .halted (.outOfBounds a)) → s.status.errAddr = 0)

/-! ## Reset -/

/-- The reset action places the ROM image verbatim from the origin on and rejects one larger than 4096 − LOAD_ORIGIN bytes
(R164, R165). -/
def Obligations.ResetPlacesTheRomVerbatim : Prop :=
  ∀ (rom : List Byte) (cfg : Config) (s : State),
    (rom.length > 4096 - cfg.loadOrigin.toNat → act (.reset rom cfg) s = .refused .invalidRomSize) ∧
    (rom.length ≤ 4096 - cfg.loadOrigin.toNat →
      ∃ t, act (.reset rom cfg) s = .next t ∧
        ∀ (k : Nat) (h : k < rom.length), t.byte (cfg.loadOrigin.toNat + k) = rom[k])

/-- Everything the reset action leaves: outside the ROM the font at FONT_BASE and zero elsewhere, PC at the origin, an
empty stack, timers zero, the initial registers, a clear display, every key up, Running, whatever the state before was
(R45, R163, R166; decisions D1, D2, D3, D34, D36). Memory ends at 0xFFF, so font bytes that FONT_BASE above 0xFB0 would put past
it do not exist; that is the model's choice (log entry 10). -/
def Obligations.ResetBuildsAFreshState : Prop :=
  ∀ (rom : List Byte) (cfg : Config) (s : State), rom.length ≤ 4096 - cfg.loadOrigin.toNat →
    ∃ t, act (.reset rom cfg) s = .next t ∧ t.pc.toNat = cfg.loadOrigin.toNat ∧ t.stack = [] ∧ t.dt = 0 ∧ t.st = 0 ∧
      t.v = cfg.initV ∧ t.i = cfg.initI ∧ (∀ px py, t.pixel px py = false) ∧ (∀ k, t.key k = false) ∧
      t.runstate = .running ∧ t.cfg = cfg ∧
      ∀ a, a ≤ 0xFFF → (a < cfg.loadOrigin.toNat ∨ cfg.loadOrigin.toNat + rom.length ≤ a) →
        (∀ k : Fin 80, a = cfg.fontBase.toNat + k.val → t.byte a = cfg.fontTable[k.val]) ∧
        ((a < cfg.fontBase.toNat ∨ cfg.fontBase.toNat + 80 ≤ a) → t.byte a = 0)

/-- `State.reset` holds the values of R45 with the defaults of R7: PC = 0x200, an empty stack, timers, registers and I
zero, every pixel off, every key up, Running, the standard font at 0x000, every other byte zero (decisions D1 to D4). -/
def Obligations.ResetStateHasTheValuesOfR45 : Prop :=
  State.reset.pc = 0x200 ∧ State.reset.stack = [] ∧ State.reset.dt = 0 ∧ State.reset.st = 0 ∧ State.reset.i = 0 ∧
  (∀ r, State.reset.reg r = 0) ∧ (∀ px py, State.reset.pixel px py = false) ∧ (∀ k, State.reset.key k = false) ∧
  State.reset.runstate = .running ∧ State.reset.mem = [] ∧
  State.reset.bytes 0x00 5 = [0xF0, 0x90, 0x90, 0x90, 0xF0] ∧ State.reset.bytes 0x4B 5 = [0xF0, 0x80, 0xF0, 0x80, 0x80] ∧
  ∀ a, 0x50 ≤ a → State.reset.byte a = 0

/-! ## Invariants -/

/-- The invariant holds right after reset: an empty stack, PC at 0x200, Running (R45, with the bounds of R21 and R27), and
memory inside 0x000..0xFFF (R46) in the canonical form, which is the model's own (log entry 8). -/
def Obligations.ResetMeetsTheInvariant : Prop := State.reset.Inv

/-- Every step keeps the invariant: memory canonical and inside 4096 bytes, at most 16 return addresses of at most 0x1000,
PC at most 0x10FE, the run state in agreement with the rest: a waiting core stands on its FX0A, a halted one on the state
its error names (R21, R27, R46, R97, R100, R136, R145; several of them rest on decisions D15, D18, D24). -/
def Obligations.EveryStepKeepsTheInvariant : Prop :=
  ∀ s t : State, s.Inv → step s = .next t → t.Inv

/-- Every step keeps memory in its canonical form, from any state whose memory has it; the form is the model's
(log entry 8). -/
def Obligations.EveryStepKeepsMemoryCanonical : Prop :=
  ∀ s t : State, Memory.wf s.cfg s.mem → step s = .next t → Memory.wf t.cfg t.mem

/-- The configuration changes only by a reset: "none changes during a run" (R7). -/
def Obligations.ConfigurationChangesOnlyByReset : Prop :=
  ∀ (a : Action) (s t : State), act a s = .next t →
    (notReset a = true → t.cfg = s.cfg) ∧ (∀ rom cfg, a = .reset rom cfg → t.cfg = cfg)

/-- The run state moves only along the transitions of R35: an action other than a reset leaves it alone, or executes
wait-for-key (Running to WaitingForKey), or meets a fatal condition in a step (Running to Halted), or is a key-down event
(WaitingForKey to Running); and a key-down that completes a wait moves PC by 2. -/
def Obligations.RunStateFollowsItsTransitions : Prop :=
  ∀ (a : Action) (s t : State), notReset a = true → act a s = .next t → t.runstate ≠ s.runstate →
    (a = .step ∧ s.runstate = .running ∧
      ((∃ x, decode (s.word s.pc.toNat) = some (.ldVxK x) ∧ t.runstate = .waitingForKey x) ∨
        (∃ e, t = haltedWith e s))) ∨
    (∃ k x, a = .keyDown k ∧ s.key k = false ∧ s.runstate = .waitingForKey x ∧ t.runstate = .running ∧ t.pc = s.pc + 2)

/-! ## Whole-machine frames -/

/-- An instruction writes only the registers of the column `writes` of R18. -/
def Obligations.RegistersChangeOnlyWhereTheTableSays : Prop :=
  ∀ (i : Instr) (s t : State) (r : Reg), exec i s = .next t → r ∉ writesRegs i → t.reg r = s.reg r

/-- An instruction depends only on the registers of the column `reads` of R18: changing any other register before it
changes nothing after it but that register, and not even that where the instruction overwrites it. -/
def Obligations.ResultsDependOnlyOnTheRegistersRead : Prop :=
  ∀ (i : Instr) (s : State) (r : Reg) (b : Byte), r ∉ readsRegs s.cfg i →
    ∃ t, exec i s = .next t ∧
      (exec i (s.setReg r b) = .next t ∨ exec i (s.setReg r b) = .next (t.setReg r b))

/-- Only FX33 and FX55 change memory, and only inside the bytes the table of R56 gives them, at the address in I; and of the
actions other than a reset only a Running step that executes such an instruction changes a byte, so the host has no path to
write memory (R56, R64). -/
def Obligations.MemoryChangesOnlyInTheStoredBytes : Prop :=
  (∀ (i : Instr) (s t : State) (a : Nat), exec i s = .next t →
    (a < (storedBytes i s).1 ∨ (storedBytes i s).1 + (storedBytes i s).2 ≤ a) → t.byte a = s.byte a) ∧
  (∀ (b : Action) (s t : State) (a : Nat), notReset b = true → act b s = .next t → t.byte a ≠ s.byte a →
    b = .step ∧ s.runstate = .running ∧ ∃ i, decode (s.word s.pc.toNat) = some i ∧
      (storedBytes i s).1 ≤ a ∧ a < (storedBytes i s).1 + (storedBytes i s).2)

/-- Only CALL and RET change the call stack, by one entry at its top (R28; decision D25). -/
def Obligations.OnlyCallAndReturnTouchTheStack : Prop :=
  ∀ (i : Instr) (s t : State), exec i s = .next t → t.stack ≠ s.stack →
    (∃ nnn, i = .call nnn ∧ t.stack = s.stack ++ [s.pc + 2]) ∨ (i = .ret ∧ ∃ top, s.stack = t.stack ++ [top])

/-- Only ANNN, FX1E and FX29 change I; only CLS and DRW change the display; only FX15 changes DT and only FX18 changes ST;
no instruction changes a key, the configuration or what the host does next (R22, R24, R25, R30, R31). -/
def Obligations.SpecialRegistersChangeOnlyByTheirInstructions : Prop :=
  ∀ (i : Instr) (s t : State), exec i s = .next t →
    (t.i ≠ s.i → (∃ nnn, i = .ldI nnn) ∨ (∃ x, i = .addIVx x) ∨ (∃ x, i = .ldFVx x)) ∧
    (t.disp ≠ s.disp → i = .cls ∨ ∃ x y n, i = .drw x y n) ∧
    (t.dt ≠ s.dt → ∃ x, i = .ldDtVx x) ∧ (t.st ≠ s.st → ∃ x, i = .ldStVx x) ∧
    t.keys = s.keys ∧ t.cfg = s.cfg ∧ t.pending = s.pending

/-- PC after an instruction is of one of the four kinds of R91: the next word, the word after it for a skip, the target of
a transfer, or held by FX0A; and a fatal error leaves PC at the fetch address (R91, R97; derived there). -/
def Obligations.PcAfterAnInstructionHasOneOfFourKinds : Prop :=
  ∀ (i : Instr) (s t : State), exec i s = .next t →
    (match i with
      | .seVxKk _ _ | .sneVxKk _ _ | .seVxVy _ _ | .sneVxVy _ _ | .skp _ | .sknp _ => t.pc = s.pc + 2 ∨ t.pc = s.pc + 4
      | .jp nnn => t.pc.toNat = nnn.toNat
      | .call nnn => t.pc.toNat = nnn.toNat ∨ t = haltedWith .stackOverflow s
      | .ret => s.stack.getLast? = some t.pc ∨ t = haltedWith .stackUnderflow s
      | .jpOff nnn => nnn.toNat ≤ t.pc.toNat ∧ t.pc.toNat ≤ nnn.toNat + 255
      | .ldVxK _ => t.pc = s.pc
      | .cls | .ldVxKk _ _ | .addVxKk _ _ | .ldVxVy _ _ | .orVxVy _ _ | .andVxVy _ _ | .xorVxVy _ _ | .addVxVy _ _
      | .subVxVy _ _ | .shrVxVy _ _ | .subnVxVy _ _ | .shlVxVy _ _ | .ldI _ | .rnd _ _ | .drw _ _ _ | .ldVxDt _ | .ldDtVx _
      | .ldStVx _ | .addIVx _ | .ldFVx _ | .ldBVx _ | .stRange _ | .ldRange _ =>
        t.pc = s.pc + 2 ∨ (t.pc = s.pc ∧ ∃ e, breach i s = some e ∧ t = haltedWith e s))
end

