-- ==== Sys2Proof/Laws/State.lean ====
section
/-! SUPPORT. One lemma per field per update: what a field of the state is after each named update. All are true by
definition and tagged for simp, so that no later proof unfolds a record update. -/

namespace Sys2Proof.Machine

/-! ## setReg -/

@[simp] theorem State.setReg_v (s : State) (r : Reg) (b : Byte) : (s.setReg r b).v = s.v.set r.val b := rfl
@[simp] theorem State.setReg_i (s : State) (r : Reg) (b : Byte) : (s.setReg r b).i = s.i := rfl
@[simp] theorem State.setReg_pc (s : State) (r : Reg) (b : Byte) : (s.setReg r b).pc = s.pc := rfl
@[simp] theorem State.setReg_stack (s : State) (r : Reg) (b : Byte) : (s.setReg r b).stack = s.stack := rfl
@[simp] theorem State.setReg_dt (s : State) (r : Reg) (b : Byte) : (s.setReg r b).dt = s.dt := rfl
@[simp] theorem State.setReg_st (s : State) (r : Reg) (b : Byte) : (s.setReg r b).st = s.st := rfl
@[simp] theorem State.setReg_mem (s : State) (r : Reg) (b : Byte) : (s.setReg r b).mem = s.mem := rfl
@[simp] theorem State.setReg_disp (s : State) (r : Reg) (b : Byte) : (s.setReg r b).disp = s.disp := rfl
@[simp] theorem State.setReg_keys (s : State) (r : Reg) (b : Byte) : (s.setReg r b).keys = s.keys := rfl
@[simp] theorem State.setReg_runstate (s : State) (r : Reg) (b : Byte) : (s.setReg r b).runstate = s.runstate := rfl
@[simp] theorem State.setReg_cfg (s : State) (r : Reg) (b : Byte) : (s.setReg r b).cfg = s.cfg := rfl
@[simp] theorem State.setReg_draws (s : State) (r : Reg) (b : Byte) : (s.setReg r b).draws = s.draws := rfl
@[simp] theorem State.setReg_pending (s : State) (r : Reg) (b : Byte) : (s.setReg r b).pending = s.pending := rfl

/-! ## setI -/

@[simp] theorem State.setI_v (s : State) (w : Word) : (s.setI w).v = s.v := rfl
@[simp] theorem State.setI_i (s : State) (w : Word) : (s.setI w).i = w := rfl
@[simp] theorem State.setI_pc (s : State) (w : Word) : (s.setI w).pc = s.pc := rfl
@[simp] theorem State.setI_stack (s : State) (w : Word) : (s.setI w).stack = s.stack := rfl
@[simp] theorem State.setI_dt (s : State) (w : Word) : (s.setI w).dt = s.dt := rfl
@[simp] theorem State.setI_st (s : State) (w : Word) : (s.setI w).st = s.st := rfl
@[simp] theorem State.setI_mem (s : State) (w : Word) : (s.setI w).mem = s.mem := rfl
@[simp] theorem State.setI_disp (s : State) (w : Word) : (s.setI w).disp = s.disp := rfl
@[simp] theorem State.setI_keys (s : State) (w : Word) : (s.setI w).keys = s.keys := rfl
@[simp] theorem State.setI_runstate (s : State) (w : Word) : (s.setI w).runstate = s.runstate := rfl
@[simp] theorem State.setI_cfg (s : State) (w : Word) : (s.setI w).cfg = s.cfg := rfl
@[simp] theorem State.setI_draws (s : State) (w : Word) : (s.setI w).draws = s.draws := rfl
@[simp] theorem State.setI_pending (s : State) (w : Word) : (s.setI w).pending = s.pending := rfl

/-! ## setPc -/

@[simp] theorem State.setPc_v (s : State) (w : Word) : (s.setPc w).v = s.v := rfl
@[simp] theorem State.setPc_i (s : State) (w : Word) : (s.setPc w).i = s.i := rfl
@[simp] theorem State.setPc_pc (s : State) (w : Word) : (s.setPc w).pc = w := rfl
@[simp] theorem State.setPc_stack (s : State) (w : Word) : (s.setPc w).stack = s.stack := rfl
@[simp] theorem State.setPc_dt (s : State) (w : Word) : (s.setPc w).dt = s.dt := rfl
@[simp] theorem State.setPc_st (s : State) (w : Word) : (s.setPc w).st = s.st := rfl
@[simp] theorem State.setPc_mem (s : State) (w : Word) : (s.setPc w).mem = s.mem := rfl
@[simp] theorem State.setPc_disp (s : State) (w : Word) : (s.setPc w).disp = s.disp := rfl
@[simp] theorem State.setPc_keys (s : State) (w : Word) : (s.setPc w).keys = s.keys := rfl
@[simp] theorem State.setPc_runstate (s : State) (w : Word) : (s.setPc w).runstate = s.runstate := rfl
@[simp] theorem State.setPc_cfg (s : State) (w : Word) : (s.setPc w).cfg = s.cfg := rfl
@[simp] theorem State.setPc_draws (s : State) (w : Word) : (s.setPc w).draws = s.draws := rfl
@[simp] theorem State.setPc_pending (s : State) (w : Word) : (s.setPc w).pending = s.pending := rfl

/-! ## setDt -/

@[simp] theorem State.setDt_v (s : State) (b : Byte) : (s.setDt b).v = s.v := rfl
@[simp] theorem State.setDt_i (s : State) (b : Byte) : (s.setDt b).i = s.i := rfl
@[simp] theorem State.setDt_pc (s : State) (b : Byte) : (s.setDt b).pc = s.pc := rfl
@[simp] theorem State.setDt_stack (s : State) (b : Byte) : (s.setDt b).stack = s.stack := rfl
@[simp] theorem State.setDt_dt (s : State) (b : Byte) : (s.setDt b).dt = b := rfl
@[simp] theorem State.setDt_st (s : State) (b : Byte) : (s.setDt b).st = s.st := rfl
@[simp] theorem State.setDt_mem (s : State) (b : Byte) : (s.setDt b).mem = s.mem := rfl
@[simp] theorem State.setDt_disp (s : State) (b : Byte) : (s.setDt b).disp = s.disp := rfl
@[simp] theorem State.setDt_keys (s : State) (b : Byte) : (s.setDt b).keys = s.keys := rfl
@[simp] theorem State.setDt_runstate (s : State) (b : Byte) : (s.setDt b).runstate = s.runstate := rfl
@[simp] theorem State.setDt_cfg (s : State) (b : Byte) : (s.setDt b).cfg = s.cfg := rfl
@[simp] theorem State.setDt_draws (s : State) (b : Byte) : (s.setDt b).draws = s.draws := rfl
@[simp] theorem State.setDt_pending (s : State) (b : Byte) : (s.setDt b).pending = s.pending := rfl

/-! ## setSt -/

@[simp] theorem State.setSt_v (s : State) (b : Byte) : (s.setSt b).v = s.v := rfl
@[simp] theorem State.setSt_i (s : State) (b : Byte) : (s.setSt b).i = s.i := rfl
@[simp] theorem State.setSt_pc (s : State) (b : Byte) : (s.setSt b).pc = s.pc := rfl
@[simp] theorem State.setSt_stack (s : State) (b : Byte) : (s.setSt b).stack = s.stack := rfl
@[simp] theorem State.setSt_dt (s : State) (b : Byte) : (s.setSt b).dt = s.dt := rfl
@[simp] theorem State.setSt_st (s : State) (b : Byte) : (s.setSt b).st = b := rfl
@[simp] theorem State.setSt_mem (s : State) (b : Byte) : (s.setSt b).mem = s.mem := rfl
@[simp] theorem State.setSt_disp (s : State) (b : Byte) : (s.setSt b).disp = s.disp := rfl
@[simp] theorem State.setSt_keys (s : State) (b : Byte) : (s.setSt b).keys = s.keys := rfl
@[simp] theorem State.setSt_runstate (s : State) (b : Byte) : (s.setSt b).runstate = s.runstate := rfl
@[simp] theorem State.setSt_cfg (s : State) (b : Byte) : (s.setSt b).cfg = s.cfg := rfl
@[simp] theorem State.setSt_draws (s : State) (b : Byte) : (s.setSt b).draws = s.draws := rfl
@[simp] theorem State.setSt_pending (s : State) (b : Byte) : (s.setSt b).pending = s.pending := rfl

/-! ## setStack -/

@[simp] theorem State.setStack_v (s : State) (l : List Word) : (s.setStack l).v = s.v := rfl
@[simp] theorem State.setStack_i (s : State) (l : List Word) : (s.setStack l).i = s.i := rfl
@[simp] theorem State.setStack_pc (s : State) (l : List Word) : (s.setStack l).pc = s.pc := rfl
@[simp] theorem State.setStack_stack (s : State) (l : List Word) : (s.setStack l).stack = l := rfl
@[simp] theorem State.setStack_dt (s : State) (l : List Word) : (s.setStack l).dt = s.dt := rfl
@[simp] theorem State.setStack_st (s : State) (l : List Word) : (s.setStack l).st = s.st := rfl
@[simp] theorem State.setStack_mem (s : State) (l : List Word) : (s.setStack l).mem = s.mem := rfl
@[simp] theorem State.setStack_disp (s : State) (l : List Word) : (s.setStack l).disp = s.disp := rfl
@[simp] theorem State.setStack_keys (s : State) (l : List Word) : (s.setStack l).keys = s.keys := rfl
@[simp] theorem State.setStack_runstate (s : State) (l : List Word) : (s.setStack l).runstate = s.runstate := rfl
@[simp] theorem State.setStack_cfg (s : State) (l : List Word) : (s.setStack l).cfg = s.cfg := rfl
@[simp] theorem State.setStack_draws (s : State) (l : List Word) : (s.setStack l).draws = s.draws := rfl
@[simp] theorem State.setStack_pending (s : State) (l : List Word) : (s.setStack l).pending = s.pending := rfl

/-! ## setMem -/

@[simp] theorem State.setMem_v (s : State) (m : Memory) : (s.setMem m).v = s.v := rfl
@[simp] theorem State.setMem_i (s : State) (m : Memory) : (s.setMem m).i = s.i := rfl
@[simp] theorem State.setMem_pc (s : State) (m : Memory) : (s.setMem m).pc = s.pc := rfl
@[simp] theorem State.setMem_stack (s : State) (m : Memory) : (s.setMem m).stack = s.stack := rfl
@[simp] theorem State.setMem_dt (s : State) (m : Memory) : (s.setMem m).dt = s.dt := rfl
@[simp] theorem State.setMem_st (s : State) (m : Memory) : (s.setMem m).st = s.st := rfl
@[simp] theorem State.setMem_mem (s : State) (m : Memory) : (s.setMem m).mem = m := rfl
@[simp] theorem State.setMem_disp (s : State) (m : Memory) : (s.setMem m).disp = s.disp := rfl
@[simp] theorem State.setMem_keys (s : State) (m : Memory) : (s.setMem m).keys = s.keys := rfl
@[simp] theorem State.setMem_runstate (s : State) (m : Memory) : (s.setMem m).runstate = s.runstate := rfl
@[simp] theorem State.setMem_cfg (s : State) (m : Memory) : (s.setMem m).cfg = s.cfg := rfl
@[simp] theorem State.setMem_draws (s : State) (m : Memory) : (s.setMem m).draws = s.draws := rfl
@[simp] theorem State.setMem_pending (s : State) (m : Memory) : (s.setMem m).pending = s.pending := rfl

/-! ## setDisp -/

@[simp] theorem State.setDisp_v (s : State) (d : Display) : (s.setDisp d).v = s.v := rfl
@[simp] theorem State.setDisp_i (s : State) (d : Display) : (s.setDisp d).i = s.i := rfl
@[simp] theorem State.setDisp_pc (s : State) (d : Display) : (s.setDisp d).pc = s.pc := rfl
@[simp] theorem State.setDisp_stack (s : State) (d : Display) : (s.setDisp d).stack = s.stack := rfl
@[simp] theorem State.setDisp_dt (s : State) (d : Display) : (s.setDisp d).dt = s.dt := rfl
@[simp] theorem State.setDisp_st (s : State) (d : Display) : (s.setDisp d).st = s.st := rfl
@[simp] theorem State.setDisp_mem (s : State) (d : Display) : (s.setDisp d).mem = s.mem := rfl
@[simp] theorem State.setDisp_disp (s : State) (d : Display) : (s.setDisp d).disp = d := rfl
@[simp] theorem State.setDisp_keys (s : State) (d : Display) : (s.setDisp d).keys = s.keys := rfl
@[simp] theorem State.setDisp_runstate (s : State) (d : Display) : (s.setDisp d).runstate = s.runstate := rfl
@[simp] theorem State.setDisp_cfg (s : State) (d : Display) : (s.setDisp d).cfg = s.cfg := rfl
@[simp] theorem State.setDisp_draws (s : State) (d : Display) : (s.setDisp d).draws = s.draws := rfl
@[simp] theorem State.setDisp_pending (s : State) (d : Display) : (s.setDisp d).pending = s.pending := rfl

/-! ## setRunstate -/

@[simp] theorem State.setRunstate_v (s : State) (r : RunState) : (s.setRunstate r).v = s.v := rfl
@[simp] theorem State.setRunstate_i (s : State) (r : RunState) : (s.setRunstate r).i = s.i := rfl
@[simp] theorem State.setRunstate_pc (s : State) (r : RunState) : (s.setRunstate r).pc = s.pc := rfl
@[simp] theorem State.setRunstate_stack (s : State) (r : RunState) : (s.setRunstate r).stack = s.stack := rfl
@[simp] theorem State.setRunstate_dt (s : State) (r : RunState) : (s.setRunstate r).dt = s.dt := rfl
@[simp] theorem State.setRunstate_st (s : State) (r : RunState) : (s.setRunstate r).st = s.st := rfl
@[simp] theorem State.setRunstate_mem (s : State) (r : RunState) : (s.setRunstate r).mem = s.mem := rfl
@[simp] theorem State.setRunstate_disp (s : State) (r : RunState) : (s.setRunstate r).disp = s.disp := rfl
@[simp] theorem State.setRunstate_keys (s : State) (r : RunState) : (s.setRunstate r).keys = s.keys := rfl
@[simp] theorem State.setRunstate_runstate (s : State) (r : RunState) : (s.setRunstate r).runstate = r := rfl
@[simp] theorem State.setRunstate_cfg (s : State) (r : RunState) : (s.setRunstate r).cfg = s.cfg := rfl
@[simp] theorem State.setRunstate_draws (s : State) (r : RunState) : (s.setRunstate r).draws = s.draws := rfl
@[simp] theorem State.setRunstate_pending (s : State) (r : RunState) : (s.setRunstate r).pending = s.pending := rfl

/-! ## setKey -/

@[simp] theorem State.setKey_v (s : State) (k : Key) (b : Bool) : (s.setKey k b).v = s.v := rfl
@[simp] theorem State.setKey_i (s : State) (k : Key) (b : Bool) : (s.setKey k b).i = s.i := rfl
@[simp] theorem State.setKey_pc (s : State) (k : Key) (b : Bool) : (s.setKey k b).pc = s.pc := rfl
@[simp] theorem State.setKey_stack (s : State) (k : Key) (b : Bool) : (s.setKey k b).stack = s.stack := rfl
@[simp] theorem State.setKey_dt (s : State) (k : Key) (b : Bool) : (s.setKey k b).dt = s.dt := rfl
@[simp] theorem State.setKey_st (s : State) (k : Key) (b : Bool) : (s.setKey k b).st = s.st := rfl
@[simp] theorem State.setKey_mem (s : State) (k : Key) (b : Bool) : (s.setKey k b).mem = s.mem := rfl
@[simp] theorem State.setKey_disp (s : State) (k : Key) (b : Bool) : (s.setKey k b).disp = s.disp := rfl
@[simp] theorem State.setKey_keys (s : State) (k : Key) (b : Bool) : (s.setKey k b).keys = s.keys.set k.val b := rfl
@[simp] theorem State.setKey_runstate (s : State) (k : Key) (b : Bool) : (s.setKey k b).runstate = s.runstate := rfl
@[simp] theorem State.setKey_cfg (s : State) (k : Key) (b : Bool) : (s.setKey k b).cfg = s.cfg := rfl
@[simp] theorem State.setKey_draws (s : State) (k : Key) (b : Bool) : (s.setKey k b).draws = s.draws := rfl
@[simp] theorem State.setKey_pending (s : State) (k : Key) (b : Bool) : (s.setKey k b).pending = s.pending := rfl

/-! ## countDraw -/

@[simp] theorem State.countDraw_v (s : State) : (s.countDraw).v = s.v := rfl
@[simp] theorem State.countDraw_i (s : State) : (s.countDraw).i = s.i := rfl
@[simp] theorem State.countDraw_pc (s : State) : (s.countDraw).pc = s.pc := rfl
@[simp] theorem State.countDraw_stack (s : State) : (s.countDraw).stack = s.stack := rfl
@[simp] theorem State.countDraw_dt (s : State) : (s.countDraw).dt = s.dt := rfl
@[simp] theorem State.countDraw_st (s : State) : (s.countDraw).st = s.st := rfl
@[simp] theorem State.countDraw_mem (s : State) : (s.countDraw).mem = s.mem := rfl
@[simp] theorem State.countDraw_disp (s : State) : (s.countDraw).disp = s.disp := rfl
@[simp] theorem State.countDraw_keys (s : State) : (s.countDraw).keys = s.keys := rfl
@[simp] theorem State.countDraw_runstate (s : State) : (s.countDraw).runstate = s.runstate := rfl
@[simp] theorem State.countDraw_cfg (s : State) : (s.countDraw).cfg = s.cfg := rfl
@[simp] theorem State.countDraw_draws (s : State) : (s.countDraw).draws = s.draws + 1 := rfl
@[simp] theorem State.countDraw_pending (s : State) : (s.countDraw).pending = s.pending := rfl

/-! ## setPending -/

@[simp] theorem State.setPending_v (s : State) (l : List Action) : (s.setPending l).v = s.v := rfl
@[simp] theorem State.setPending_i (s : State) (l : List Action) : (s.setPending l).i = s.i := rfl
@[simp] theorem State.setPending_pc (s : State) (l : List Action) : (s.setPending l).pc = s.pc := rfl
@[simp] theorem State.setPending_stack (s : State) (l : List Action) : (s.setPending l).stack = s.stack := rfl
@[simp] theorem State.setPending_dt (s : State) (l : List Action) : (s.setPending l).dt = s.dt := rfl
@[simp] theorem State.setPending_st (s : State) (l : List Action) : (s.setPending l).st = s.st := rfl
@[simp] theorem State.setPending_mem (s : State) (l : List Action) : (s.setPending l).mem = s.mem := rfl
@[simp] theorem State.setPending_disp (s : State) (l : List Action) : (s.setPending l).disp = s.disp := rfl
@[simp] theorem State.setPending_keys (s : State) (l : List Action) : (s.setPending l).keys = s.keys := rfl
@[simp] theorem State.setPending_runstate (s : State) (l : List Action) : (s.setPending l).runstate = s.runstate := rfl
@[simp] theorem State.setPending_cfg (s : State) (l : List Action) : (s.setPending l).cfg = s.cfg := rfl
@[simp] theorem State.setPending_draws (s : State) (l : List Action) : (s.setPending l).draws = s.draws := rfl
@[simp] theorem State.setPending_pending (s : State) (l : List Action) : (s.setPending l).pending = l := rfl

/-! ## loadRegs -/

@[simp] theorem State.loadRegs_v (s : State) (bs : List Byte) : (s.loadRegs bs).v = writeRegs s.v 0 bs := rfl
@[simp] theorem State.loadRegs_i (s : State) (bs : List Byte) : (s.loadRegs bs).i = s.i := rfl
@[simp] theorem State.loadRegs_pc (s : State) (bs : List Byte) : (s.loadRegs bs).pc = s.pc := rfl
@[simp] theorem State.loadRegs_stack (s : State) (bs : List Byte) : (s.loadRegs bs).stack = s.stack := rfl
@[simp] theorem State.loadRegs_dt (s : State) (bs : List Byte) : (s.loadRegs bs).dt = s.dt := rfl
@[simp] theorem State.loadRegs_st (s : State) (bs : List Byte) : (s.loadRegs bs).st = s.st := rfl
@[simp] theorem State.loadRegs_mem (s : State) (bs : List Byte) : (s.loadRegs bs).mem = s.mem := rfl
@[simp] theorem State.loadRegs_disp (s : State) (bs : List Byte) : (s.loadRegs bs).disp = s.disp := rfl
@[simp] theorem State.loadRegs_keys (s : State) (bs : List Byte) : (s.loadRegs bs).keys = s.keys := rfl
@[simp] theorem State.loadRegs_runstate (s : State) (bs : List Byte) : (s.loadRegs bs).runstate = s.runstate := rfl
@[simp] theorem State.loadRegs_cfg (s : State) (bs : List Byte) : (s.loadRegs bs).cfg = s.cfg := rfl
@[simp] theorem State.loadRegs_draws (s : State) (bs : List Byte) : (s.loadRegs bs).draws = s.draws := rfl
@[simp] theorem State.loadRegs_pending (s : State) (bs : List Byte) : (s.loadRegs bs).pending = s.pending := rfl

/-! ## Updates made of others -/

@[simp] theorem State.advance_eq (s : State) : s.advance = s.setPc (s.pc + 2) := rfl

theorem State.skipIf_eq (s : State) (c : Bool) : s.skipIf c = s.setPc (if c then s.pc + 4 else s.pc + 2) := by
  cases c with
  | false => rfl
  | true =>
    show s.setPc (s.pc + 2 + 2) = s.setPc (s.pc + 4)
    rw [BitVec.add_assoc]
    rfl

@[simp] theorem State.store_eq (s : State) (a : Nat) (bs : List Byte) :
    s.store a bs = s.setMem (Memory.writeList s.cfg s.mem a bs) := rfl

/-! ## Reading a register or a key after an update -/

@[simp] theorem State.reg_setReg_self (s : State) (r : Reg) (b : Byte) : (s.setReg r b).reg r = b := by
  simp [State.reg]

theorem State.reg_setReg (s : State) (r q : Reg) (b : Byte) :
    (s.setReg r b).reg q = if q = r then b else s.reg q := by
  by_cases h : q = r
  · subst h; simp
  · have h' : r.val ≠ q.val := fun e => h (Fin.ext e.symm)
    simp [State.reg, h, Vector.getElem_set_ne, h']

theorem State.reg_congr {s t : State} (h : t.v = s.v) (q : Reg) : t.reg q = s.reg q := by simp [State.reg, h]

@[simp] theorem State.reg_setI (s : State) (w : Word) (q : Reg) : (s.setI w).reg q = s.reg q := rfl
@[simp] theorem State.reg_setPc (s : State) (w : Word) (q : Reg) : (s.setPc w).reg q = s.reg q := rfl
@[simp] theorem State.reg_setDt (s : State) (b : Byte) (q : Reg) : (s.setDt b).reg q = s.reg q := rfl
@[simp] theorem State.reg_setSt (s : State) (b : Byte) (q : Reg) : (s.setSt b).reg q = s.reg q := rfl
@[simp] theorem State.reg_setStack (s : State) (l : List Word) (q : Reg) : (s.setStack l).reg q = s.reg q := rfl
@[simp] theorem State.reg_setMem (s : State) (m : Memory) (q : Reg) : (s.setMem m).reg q = s.reg q := rfl
@[simp] theorem State.reg_setDisp (s : State) (d : Display) (q : Reg) : (s.setDisp d).reg q = s.reg q := rfl
@[simp] theorem State.reg_setRunstate (s : State) (r : RunState) (q : Reg) : (s.setRunstate r).reg q = s.reg q := rfl
@[simp] theorem State.reg_setKey (s : State) (k : Key) (b : Bool) (q : Reg) : (s.setKey k b).reg q = s.reg q := rfl
@[simp] theorem State.reg_countDraw (s : State) (q : Reg) : (s.countDraw).reg q = s.reg q := rfl
@[simp] theorem State.reg_setPending (s : State) (l : List Action) (q : Reg) : (s.setPending l).reg q = s.reg q := rfl

theorem State.reg_setRegFlag (s : State) (x q : Reg) (b f : Byte) :
    (s.setRegFlag x b f).reg q = if q = vf then f else if q = x then b else s.reg q := by
  simp [State.setRegFlag, State.reg_setReg]

theorem State.key_setKey (s : State) (k q : Key) (b : Bool) :
    (s.setKey k b).key q = if q = k then b else s.key q := by
  by_cases h : q = k
  · subst h; simp [State.key]
  · have h' : k.val ≠ q.val := fun e => h (Fin.ext e.symm)
    simp [State.key, h, Vector.getElem_set_ne, h']

@[simp] theorem State.key_setReg (s : State) (r : Reg) (b : Byte) (q : Key) : (s.setReg r b).key q = s.key q := rfl
@[simp] theorem State.key_setI (s : State) (w : Word) (q : Key) : (s.setI w).key q = s.key q := rfl
@[simp] theorem State.key_setPc (s : State) (w : Word) (q : Key) : (s.setPc w).key q = s.key q := rfl
@[simp] theorem State.key_setDt (s : State) (b : Byte) (q : Key) : (s.setDt b).key q = s.key q := rfl
@[simp] theorem State.key_setSt (s : State) (b : Byte) (q : Key) : (s.setSt b).key q = s.key q := rfl
@[simp] theorem State.key_setStack (s : State) (l : List Word) (q : Key) : (s.setStack l).key q = s.key q := rfl
@[simp] theorem State.key_setMem (s : State) (m : Memory) (q : Key) : (s.setMem m).key q = s.key q := rfl
@[simp] theorem State.key_setDisp (s : State) (d : Display) (q : Key) : (s.setDisp d).key q = s.key q := rfl
@[simp] theorem State.key_setRunstate (s : State) (r : RunState) (q : Key) : (s.setRunstate r).key q = s.key q := rfl
@[simp] theorem State.key_countDraw (s : State) (q : Key) : (s.countDraw).key q = s.key q := rfl
@[simp] theorem State.key_setPending (s : State) (l : List Action) (q : Key) : (s.setPending l).key q = s.key q := rfl
@[simp] theorem State.key_loadRegs (s : State) (bs : List Byte) (q : Key) : (s.loadRegs bs).key q = s.key q := rfl

/-! ## Reading a byte of memory after an update that leaves memory alone -/

@[simp] theorem State.byte_setReg (s : State) (r : Reg) (b : Byte) (a : Nat) : (s.setReg r b).byte a = s.byte a := rfl
@[simp] theorem State.byte_setI (s : State) (w : Word) (a : Nat) : (s.setI w).byte a = s.byte a := rfl
@[simp] theorem State.byte_setPc (s : State) (w : Word) (a : Nat) : (s.setPc w).byte a = s.byte a := rfl
@[simp] theorem State.byte_setDt (s : State) (b : Byte) (a : Nat) : (s.setDt b).byte a = s.byte a := rfl
@[simp] theorem State.byte_setSt (s : State) (b : Byte) (a : Nat) : (s.setSt b).byte a = s.byte a := rfl
@[simp] theorem State.byte_setStack (s : State) (l : List Word) (a : Nat) : (s.setStack l).byte a = s.byte a := rfl
@[simp] theorem State.byte_setDisp (s : State) (d : Display) (a : Nat) : (s.setDisp d).byte a = s.byte a := rfl
@[simp] theorem State.byte_setRunstate (s : State) (r : RunState) (a : Nat) : (s.setRunstate r).byte a = s.byte a := rfl
@[simp] theorem State.byte_setKey (s : State) (k : Key) (b : Bool) (a : Nat) : (s.setKey k b).byte a = s.byte a := rfl
@[simp] theorem State.byte_countDraw (s : State) (a : Nat) : (s.countDraw).byte a = s.byte a := rfl
@[simp] theorem State.byte_setPending (s : State) (l : List Action) (a : Nat) : (s.setPending l).byte a = s.byte a := rfl
@[simp] theorem State.byte_loadRegs (s : State) (bs : List Byte) (a : Nat) : (s.loadRegs bs).byte a = s.byte a := rfl

end Sys2Proof.Machine
end

