-- ==== Sys2Proof/Laws/Memory.lean ====
section
/-! SUPPORT. The laws of memory: a read after a write, other bytes left alone, and the canonical form kept. -/

namespace Sys2Proof.Machine

/-! ## Read after write -/

theorem Memory.find_insert (m : Memory) (a b : Nat) (v : Byte) :
    Memory.find (Memory.insert m a v) b = if a = b then some v else Memory.find m b := by
  induction m with
  | nil => simp [Memory.insert, Memory.find]
  | cons c rest ih =>
    obtain ⟨d, u⟩ := c
    simp only [Memory.insert]
    by_cases h1 : a < d
    · simp [h1, Memory.find]
    · by_cases h2 : a = d
      · subst h2
        by_cases h3 : a = b <;> simp [Memory.find, h3]
      · by_cases h3 : d = b
        · subst h3; simp [h1, h2, Memory.find]
        · simp [h1, h2, Memory.find, h3, ih]

theorem Memory.erase_cons (c : Host.Cell) (rest : Memory) (a : Nat) :
    Memory.erase (c :: rest) a = if c.1 = a then Memory.erase rest a else c :: Memory.erase rest a := by
  by_cases h : c.1 = a <;> simp [Memory.erase, h]

theorem Memory.find_erase (m : Memory) (a b : Nat) :
    Memory.find (Memory.erase m a) b = if a = b then none else Memory.find m b := by
  induction m with
  | nil => simp [Memory.erase, Memory.find]
  | cons c rest ih =>
    obtain ⟨d, u⟩ := c
    rw [Memory.erase_cons]
    by_cases h1 : d = a
    · subst h1
      rw [if_pos rfl, ih]
      by_cases h2 : d = b <;> simp [Memory.find, h2]
    · by_cases h2 : d = b
      · subst h2; simp [h1, Memory.find, Ne.symm h1]
      · simp [h1, Memory.find, h2, ih]

/-- A byte reads as it was last written, and a write leaves every other byte alone. -/
theorem Memory.read_write (cfg : Config) (m : Memory) (a b : Nat) (v : Byte) :
    Memory.read cfg (Memory.write cfg m a v) b = if a = b then v else Memory.read cfg m b := by
  unfold Memory.write Memory.read
  split
  · rename_i hv
    rw [Memory.find_erase]
    by_cases h : a = b
    · subst h; simp [hv]
    · simp [h]
  · rw [Memory.find_insert]
    by_cases h : a = b <;> simp [h]

/-- Bytes written at ascending addresses read back in order, and every other byte is left alone. -/
theorem Memory.read_writeList (cfg : Config) (bs : List Byte) (m : Memory) (a b : Nat) :
    Memory.read cfg (Memory.writeList cfg m a bs) b =
      if h : a ≤ b ∧ b - a < bs.length then bs[b - a]'h.2 else Memory.read cfg m b := by
  induction bs generalizing m a with
  | nil => simp [Memory.writeList]
  | cons v rest ih =>
    simp only [Memory.writeList, ih, Memory.read_write, List.length_cons]
    by_cases h1 : a = b
    · subst h1
      have : ¬ a + 1 ≤ a := by omega
      simp [this]
    · by_cases h2 : a ≤ b
      · have h3 : a + 1 ≤ b := by omega
        have h4 : b - a = (b - (a + 1)) + 1 := by omega
        simp only [h1, h2, h3, h4, true_and, Nat.add_lt_add_iff_right, List.getElem_cons_succ, if_false]
      · have h3 : ¬ a + 1 ≤ b := by omega
        simp [h1, h2, h3]

/-- The byte read after a store. -/
theorem State.byte_store (s : State) (a b : Nat) (bs : List Byte) :
    (s.setMem (Memory.writeList s.cfg s.mem a bs)).byte b =
      if h : a ≤ b ∧ b - a < bs.length then bs[b - a]'h.2 else s.byte b :=
  Memory.read_writeList s.cfg bs s.mem a b

theorem State.byte_store_outside (s : State) (a b : Nat) (bs : List Byte) (h : b < a ∨ a + bs.length ≤ b) :
    (s.setMem (Memory.writeList s.cfg s.mem a bs)).byte b = s.byte b := by
  rw [State.byte_store, dif_neg]
  omega

/-- The reset contents of memory, read through the empty list. -/
theorem Memory.read_nil (cfg : Config) (a : Nat) : Memory.read cfg [] a = resetByte cfg a := rfl

theorem State.bytes_length (s : State) (a n : Nat) : (s.bytes a n).length = n := by simp [State.bytes]

theorem State.bytes_getElem (s : State) (a n k : Nat) (h : k < (s.bytes a n).length) :
    (s.bytes a n)[k] = s.byte (a + k) := by simp [State.bytes]

/-! ## The canonical form is kept -/

theorem Memory.wf_nil (cfg : Config) : Memory.wf cfg [] := by simp [Memory.wf]

theorem Memory.mem_insert (m : Memory) (a : Nat) (v : Byte) (c : Host.Cell) (h : c ∈ Memory.insert m a v) :
    c = (a, v) ∨ c ∈ m := by
  induction m with
  | nil => simpa [Memory.insert] using h
  | cons d rest ih =>
    obtain ⟨b, u⟩ := d
    simp only [Memory.insert] at h
    split at h
    · simpa using h
    · split at h
      · rcases List.mem_cons.mp h with h | h
        · exact .inl h
        · exact .inr (List.mem_cons_of_mem _ h)
      · rcases List.mem_cons.mp h with h | h
        · exact .inr (h ▸ List.mem_cons_self)
        · rcases ih h with h | h
          · exact .inl h
          · exact .inr (List.mem_cons_of_mem _ h)

theorem Memory.insert_rising (m : Memory) (a : Nat) (v : Byte) (h : m.Pairwise (fun p q => p.1 < q.1)) :
    (Memory.insert m a v).Pairwise (fun p q => p.1 < q.1) := by
  induction m with
  | nil => simp [Memory.insert]
  | cons d rest ih =>
    obtain ⟨b, u⟩ := d
    have ⟨hd, hr⟩ := List.pairwise_cons.mp h
    simp only [Memory.insert]
    split
    · rename_i hab
      refine List.pairwise_cons.mpr ⟨fun c hc => ?_, h⟩
      rcases List.mem_cons.mp hc with rfl | hc
      · exact hab
      · exact Nat.lt_trans hab (hd c hc)
    · split
      · rename_i hab
        subst hab
        exact List.pairwise_cons.mpr ⟨hd, hr⟩
      · rename_i h1 h2
        refine List.pairwise_cons.mpr ⟨fun c hc => ?_, ih hr⟩
        rcases Memory.mem_insert rest a v c hc with rfl | hc
        · show b < a
          omega
        · exact hd c hc

/-- Writing a byte inside memory keeps the canonical form. -/
theorem Memory.wf_write (cfg : Config) (m : Memory) (a : Nat) (v : Byte) (ha : a < 4096) (h : Memory.wf cfg m) :
    Memory.wf cfg (Memory.write cfg m a v) := by
  unfold Memory.write
  split
  · exact ⟨h.1.filter _, fun p hp => h.2 p (List.mem_of_mem_filter hp)⟩
  · rename_i hv
    refine ⟨Memory.insert_rising m a v h.1, fun p hp => ?_⟩
    rcases Memory.mem_insert m a v p hp with rfl | hp
    · exact ⟨ha, hv⟩
    · exact h.2 p hp

/-- Writing bytes inside memory keeps the canonical form. -/
theorem Memory.wf_writeList (cfg : Config) (bs : List Byte) (m : Memory) (a : Nat) (ha : a + bs.length ≤ 4096)
    (h : Memory.wf cfg m) : Memory.wf cfg (Memory.writeList cfg m a bs) := by
  induction bs generalizing m a with
  | nil => exact h
  | cons v rest ih =>
    simp only [List.length_cons] at ha
    exact ih _ _ (by omega) (Memory.wf_write cfg m a v (by omega) h)

end Sys2Proof.Machine
end

