-- ==== Sys2Proof/Laws/Ops.lean ====
section
/-! SUPPORT. One lemma per shared operation that says everything it can do; provers cite these instead of unfolding. -/

namespace Sys2Proof.Machine

/-! ## Range checks and fatal errors -/

theorem raise_eq (e : ErrorRecord) (s : State) : raise e s = .next (haltedWith e s) := rfl

/-- The range check fails exactly when the access leaves 0x000..0xFFF. -/
theorem checkRange_eq (a n : Nat) : checkRange a n = rangeBreach a n := by
  unfold checkRange rangeBreach
  by_cases h : a + n ≤ 0x1000
  · rw [if_neg (by omega), if_pos h]
  · rw [if_pos (by omega), if_neg h]

/-- A guarded access either raises its range error or goes on. -/
theorem withRange_eq (a n : Nat) (s : State) (k : Result) :
    withRange a n s k = match rangeBreach a n with
      | some e => .next (haltedWith e s)
      | none => k := by
  rw [withRange, checkRange_eq a n]
  rfl

theorem rangeBreach_none {a n : Nat} : rangeBreach a n = none ↔ a + n ≤ 0x1000 := by
  unfold rangeBreach
  split <;> simp_all

theorem rangeBreach_some {a n : Nat} {e : ErrorRecord} (h : rangeBreach a n = some e) :
    0x1000 < a + n ∧ e = .outOfBounds (BitVec.ofNat 16 (max a 0x1000)) := by
  unfold rangeBreach at h
  split at h
  · simp at h
  · exact ⟨by omega, by simpa using h.symm⟩

/-- What a fetch answers: the word at PC, or the range error of its two bytes. -/
theorem State.fetch_eq (s : State) :
    s.fetch = if s.pc.toNat ≤ 0xFFE then .ok (s.word s.pc.toNat)
      else .error (.outOfBounds (BitVec.ofNat 16 (max s.pc.toNat 0x1000))) := by
  unfold State.fetch checkRange
  by_cases h : s.pc.toNat ≤ 0xFFE
  · rw [if_neg (by omega), if_pos h]
  · rw [if_pos (by omega), if_neg h]

/-! ## The call stack -/

theorem State.push_eq (s : State) (w : Word) :
    s.push w = if s.stack.length = 16 then .error .stackOverflow else .ok (s.setStack (s.stack ++ [w])) := rfl

theorem State.pop_nil (s : State) (h : s.stack = []) : s.pop = .error .stackUnderflow := by simp [State.pop, h]

theorem State.pop_append (s : State) (l : List Word) (w : Word) (h : s.stack = l ++ [w]) :
    s.pop = .ok (w, s.setStack l) := by simp [State.pop, h]

/-- Every stack is empty or has a top. -/
theorem stack_cases (l : List Word) : l = [] ∨ ∃ k w, l = k ++ [w] := by
  rcases List.eq_nil_or_concat l with h | ⟨k, w, h⟩
  · exact .inl h
  · exact .inr ⟨k, w, by simpa using h⟩

/-! ## Register ranges -/

theorem State.regsTo_length (s : State) (x : Reg) : (s.regsTo x).length = x.val + 1 := by
  have := x.isLt
  simp [State.regsTo]

theorem State.regsTo_getElem (s : State) (x r : Reg) (h : r.val < (s.regsTo x).length) :
    (s.regsTo x)[r.val] = s.reg r := by simp [State.regsTo, State.reg]

theorem writeRegs_getElem (bs : List Byte) (v : Vector Byte 16) (k j : Nat) (hj : j < 16) :
    (writeRegs v k bs)[j] = if h : k ≤ j ∧ j - k < bs.length then bs[j - k]'h.2 else v[j] := by
  induction bs generalizing v k with
  | nil => simp [writeRegs]
  | cons b rest ih =>
    simp only [writeRegs, ih, List.length_cons, Vector.getElem_setIfInBounds]
    by_cases h1 : k = j
    · subst h1
      have : ¬ k + 1 ≤ k := by omega
      simp [this]
    · by_cases h2 : k ≤ j
      · have h3 : k + 1 ≤ j := by omega
        have h4 : j - k = (j - (k + 1)) + 1 := by omega
        simp only [h1, h2, h3, h4, true_and, Nat.add_lt_add_iff_right, List.getElem_cons_succ, if_false]
      · have h3 : ¬ k + 1 ≤ j := by omega
        simp [h1, h2, h3]

/-- A register after a range load: the byte read for it, or its old value above the range. -/
theorem State.reg_loadRegs (s : State) (a : Nat) (x r : Reg) :
    (s.loadRegs (s.bytes a (x.val + 1))).reg r = if r.val ≤ x.val then s.byte (a + r.val) else s.reg r := by
  simp only [State.reg, State.loadRegs_v, writeRegs_getElem _ _ _ _ r.isLt, State.bytes_length, Nat.sub_zero, Nat.zero_le,
    true_and, State.bytes_getElem]
  by_cases h : r.val ≤ x.val
  · rw [dif_pos (by omega), if_pos h]
  · rw [dif_neg (by omega), if_neg h]

theorem mem_regsUpTo (x r : Reg) : r ∈ regsUpTo x ↔ r.val ≤ x.val := by simp [regsUpTo]

/-! ## Fields of a word -/

@[simp] theorem bitsIndex_indexBits (k : Fin 16) : bitsIndex (indexBits k) = k := by
  have := k.isLt
  apply Fin.ext
  simp [bitsIndex]

@[simp] theorem indexBits_bitsIndex (b : BitVec 4) : indexBits (bitsIndex b) = b := by
  apply BitVec.eq_of_toNat_eq
  have := b.isLt
  simp [bitsIndex]

end Sys2Proof.Machine
end

