-- ==== Sys2Proof/Laws/Decode.lean ====
section
/-! SUPPORT. The fields of a word and of each format, as bits and as numbers. -/

namespace Sys2Proof

/-! ## The fields of a word as numbers (R68) -/

theorem opField_toNat (w : Word) : (opField w).toNat = w.toNat / 4096 := by
  have := w.isLt
  simp only [opField, BitVec.extractLsb'_toNat, Nat.shiftRight_eq_div_pow]
  omega

theorem xField_val (w : Word) : (xField w).val = w.toNat / 256 % 16 := by
  simp only [xField, bitsIndex, BitVec.extractLsb'_toNat, Nat.shiftRight_eq_div_pow]

theorem yField_val (w : Word) : (yField w).val = w.toNat / 16 % 16 := by
  simp only [yField, bitsIndex, BitVec.extractLsb'_toNat, Nat.shiftRight_eq_div_pow]

theorem nField_val (w : Word) : (nField w).val = w.toNat % 16 := by
  simp only [nField, bitsIndex, BitVec.extractLsb'_toNat, Nat.shiftRight_zero]

theorem kkField_toNat (w : Word) : (kkField w).toNat = w.toNat % 256 := by
  simp only [kkField, BitVec.extractLsb'_toNat, Nat.shiftRight_zero]

theorem nnnField_toNat (w : Word) : (nnnField w).toNat = w.toNat % 4096 := by
  simp only [nnnField, BitVec.extractLsb'_toNat, Nat.shiftRight_zero]

/-! ## The formats as numbers (R67) -/

theorem append_toNat {m n : Nat} (a : BitVec m) (b : BitVec n) : (a ++ b).toNat = a.toNat * 2 ^ n + b.toNat := by
  rw [BitVec.toNat_append, ← Nat.shiftLeft_add_eq_or_of_lt b.isLt, Nat.shiftLeft_eq]

theorem indexBits_toNat (k : Fin 16) : (indexBits k).toNat = k.val := by
  have := k.isLt
  simp

theorem wordAddr_toNat (op : BitVec 4) (nnn : Addr) : (wordAddr op nnn).toNat = op.toNat * 4096 + nnn.toNat :=
  append_toNat op nnn

theorem wordXkk_toNat (op : BitVec 4) (x : Reg) (kk : Byte) :
    (wordXkk op x kk).toNat = op.toNat * 4096 + (x.val * 256 + kk.toNat) := by
  show (op ++ (indexBits x ++ kk)).toNat = _
  rw [append_toNat, append_toNat, indexBits_toNat]
  rfl

theorem wordXyn_toNat (op : BitVec 4) (x y : Reg) (n : BitVec 4) :
    (wordXyn op x y n).toNat = op.toNat * 4096 + (x.val * 256 + (y.val * 16 + n.toNat)) := by
  show (op ++ (indexBits x ++ (indexBits y ++ n))).toNat = _
  rw [append_toNat, append_toNat, append_toNat, indexBits_toNat, indexBits_toNat]
  rfl

/-! ## The fields of each format -/

@[simp] theorem opField_wordAddr (op : BitVec 4) (nnn : Addr) : opField (wordAddr op nnn) = op := by
  apply BitVec.eq_of_toNat_eq
  have := nnn.isLt
  rw [opField_toNat, wordAddr_toNat]
  omega

@[simp] theorem nnnField_wordAddr (op : BitVec 4) (nnn : Addr) : nnnField (wordAddr op nnn) = nnn := by
  apply BitVec.eq_of_toNat_eq
  have := nnn.isLt
  rw [nnnField_toNat, wordAddr_toNat]
  omega

@[simp] theorem opField_wordXkk (op : BitVec 4) (x : Reg) (kk : Byte) : opField (wordXkk op x kk) = op := by
  apply BitVec.eq_of_toNat_eq
  have := x.isLt
  have := kk.isLt
  rw [opField_toNat, wordXkk_toNat]
  omega

@[simp] theorem xField_wordXkk (op : BitVec 4) (x : Reg) (kk : Byte) : xField (wordXkk op x kk) = x := by
  apply Fin.ext
  have := x.isLt
  have := kk.isLt
  rw [xField_val, wordXkk_toNat]
  omega

@[simp] theorem kkField_wordXkk (op : BitVec 4) (x : Reg) (kk : Byte) : kkField (wordXkk op x kk) = kk := by
  apply BitVec.eq_of_toNat_eq
  have := kk.isLt
  rw [kkField_toNat, wordXkk_toNat]
  omega

@[simp] theorem opField_wordXyn (op : BitVec 4) (x y : Reg) (n : BitVec 4) : opField (wordXyn op x y n) = op := by
  apply BitVec.eq_of_toNat_eq
  have := x.isLt
  have := y.isLt
  have := n.isLt
  rw [opField_toNat, wordXyn_toNat]
  omega

@[simp] theorem xField_wordXyn (op : BitVec 4) (x y : Reg) (n : BitVec 4) : xField (wordXyn op x y n) = x := by
  apply Fin.ext
  have := x.isLt
  have := y.isLt
  have := n.isLt
  rw [xField_val, wordXyn_toNat]
  omega

@[simp] theorem yField_wordXyn (op : BitVec 4) (x y : Reg) (n : BitVec 4) : yField (wordXyn op x y n) = y := by
  apply Fin.ext
  have := y.isLt
  have := n.isLt
  rw [yField_val, wordXyn_toNat]
  omega

@[simp] theorem nField_wordXyn (op : BitVec 4) (x y : Reg) (n : BitVec 4) : nField (wordXyn op x y n) = bitsIndex n := by
  apply Fin.ext
  have := n.isLt
  rw [nField_val, wordXyn_toNat]
  simp only [bitsIndex]
  omega

/-- A word with a nonzero major nibble is neither of the two F-fixed words. -/
theorem ne_fixed_of_opField (w : Word) (h : opField w ≠ 0) : w ≠ 0x00E0#16 ∧ w ≠ 0x00EE#16 := by
  constructor <;> (rintro rfl; exact h (by decide))

@[simp] theorem wordAddr_ne_cls (op : BitVec 4) (nnn : Addr) (h : op ≠ 0) : wordAddr op nnn ≠ 0x00E0#16 :=
  (ne_fixed_of_opField _ (by simpa using h)).1

@[simp] theorem wordAddr_ne_ret (op : BitVec 4) (nnn : Addr) (h : op ≠ 0) : wordAddr op nnn ≠ 0x00EE#16 :=
  (ne_fixed_of_opField _ (by simpa using h)).2

@[simp] theorem wordXkk_ne_cls (op : BitVec 4) (x : Reg) (kk : Byte) (h : op ≠ 0) : wordXkk op x kk ≠ 0x00E0#16 :=
  (ne_fixed_of_opField _ (by simpa using h)).1

@[simp] theorem wordXkk_ne_ret (op : BitVec 4) (x : Reg) (kk : Byte) (h : op ≠ 0) : wordXkk op x kk ≠ 0x00EE#16 :=
  (ne_fixed_of_opField _ (by simpa using h)).2

@[simp] theorem wordXyn_ne_cls (op : BitVec 4) (x y : Reg) (n : BitVec 4) (h : op ≠ 0) : wordXyn op x y n ≠ 0x00E0#16 :=
  (ne_fixed_of_opField _ (by simpa using h)).1

@[simp] theorem wordXyn_ne_ret (op : BitVec 4) (x y : Reg) (n : BitVec 4) (h : op ≠ 0) : wordXyn op x y n ≠ 0x00EE#16 :=
  (ne_fixed_of_opField _ (by simpa using h)).2

/-- Two bytes put together again are the word (R54). -/
theorem wordOfBytes_split (w : Word) : wordOfBytes (highByte w) (lowByte w) = w := by
  apply BitVec.eq_of_toNat_eq
  have := w.isLt
  show (highByte w ++ lowByte w).toNat = _
  rw [append_toNat]
  simp only [highByte, lowByte, BitVec.extractLsb'_toNat, Nat.shiftRight_eq_div_pow]
  omega

/-! ## The class of a word, by its major nibble (the opcode map of R72) -/

theorem nibble_cases (b : BitVec 4) :
    b = 0 ∨ b = 1 ∨ b = 2 ∨ b = 3 ∨ b = 4 ∨ b = 5 ∨ b = 6 ∨ b = 7 ∨ b = 8 ∨ b = 9 ∨ b = 10 ∨ b = 11 ∨ b = 12 ∨ b = 13 ∨
      b = 14 ∨ b = 15 := by
  revert b
  decide

/-- The sixteen major nibbles, as bits and as a number. -/
theorem major_cases (w : Word) :
    (opField w = 0 ∧ w.toNat / 4096 = 0) ∨
    (opField w = 1 ∧ w.toNat / 4096 = 1) ∨
    (opField w = 2 ∧ w.toNat / 4096 = 2) ∨
    (opField w = 3 ∧ w.toNat / 4096 = 3) ∨
    (opField w = 4 ∧ w.toNat / 4096 = 4) ∨
    (opField w = 5 ∧ w.toNat / 4096 = 5) ∨
    (opField w = 6 ∧ w.toNat / 4096 = 6) ∨
    (opField w = 7 ∧ w.toNat / 4096 = 7) ∨
    (opField w = 8 ∧ w.toNat / 4096 = 8) ∨
    (opField w = 9 ∧ w.toNat / 4096 = 9) ∨
    (opField w = 10 ∧ w.toNat / 4096 = 10) ∨
    (opField w = 11 ∧ w.toNat / 4096 = 11) ∨
    (opField w = 12 ∧ w.toNat / 4096 = 12) ∨
    (opField w = 13 ∧ w.toNat / 4096 = 13) ∨
    (opField w = 14 ∧ w.toNat / 4096 = 14) ∨
    (opField w = 15 ∧ w.toNat / 4096 = 15) := by
  have h := nibble_cases (opField w)
  rw [← opField_toNat]
  rcases h with h | h | h | h | h | h | h | h | h | h | h | h | h | h | h | h <;> rw [h] <;> decide

/-- A field of KK compared with a constant, as a number. -/
theorem kkField_eq_iff (w : Word) (k : Byte) : kkField w = k ↔ w.toNat % 256 = k.toNat := by
  rw [← BitVec.toNat_inj, kkField_toNat]

/-- A field of N compared with a constant, as a number. -/
theorem nField_eq_iff (w : Word) (k : Rows) : nField w = k ↔ w.toNat % 16 = k.val := by
  rw [Fin.ext_iff, nField_val]

theorem decode_none_iff (w : Word) : decode w = none ↔ classOf w = .unknown := by
  show instrOf (describe w) = none ↔ (describe w).cls = .unknown
  unfold instrOf
  cases (describe w).cls <;> simp

theorem classOf_op0 (w : Word) (h : opField w = 0) : classOf w = if w = 0x00E0 then .cls else if w = 0x00EE then .ret else .unknown := by
  simp only [classOf, h, if_true]

theorem classOf_op1 (w : Word) (h : opField w = 1) : classOf w =
    .jp := by
  have hf := ne_fixed_of_opField w (by rw [h]; decide)
  simp [classOf, h, hf.1, hf.2]

theorem classOf_op2 (w : Word) (h : opField w = 2) : classOf w =
    .call := by
  have hf := ne_fixed_of_opField w (by rw [h]; decide)
  simp [classOf, h, hf.1, hf.2]

theorem classOf_op3 (w : Word) (h : opField w = 3) : classOf w =
    .seVxKk := by
  have hf := ne_fixed_of_opField w (by rw [h]; decide)
  simp [classOf, h, hf.1, hf.2]

theorem classOf_op4 (w : Word) (h : opField w = 4) : classOf w =
    .sneVxKk := by
  have hf := ne_fixed_of_opField w (by rw [h]; decide)
  simp [classOf, h, hf.1, hf.2]

theorem classOf_op5 (w : Word) (h : opField w = 5) : classOf w =
    (if nField w = 0x0 then .seVxVy else .unknown : OpClass) := by
  have hf := ne_fixed_of_opField w (by rw [h]; decide)
  simp [classOf, h, hf.1, hf.2]

theorem classOf_op6 (w : Word) (h : opField w = 6) : classOf w =
    .ldVxKk := by
  have hf := ne_fixed_of_opField w (by rw [h]; decide)
  simp [classOf, h, hf.1, hf.2]

theorem classOf_op7 (w : Word) (h : opField w = 7) : classOf w =
    .addVxKk := by
  have hf := ne_fixed_of_opField w (by rw [h]; decide)
  simp [classOf, h, hf.1, hf.2]

theorem classOf_op8 (w : Word) (h : opField w = 8) : classOf w =
    (if nField w = 0x0 then .ldVxVy else if nField w = 0x1 then .or else if nField w = 0x2 then .and
      else if nField w = 0x3 then .xor else if nField w = 0x4 then .addVxVy else if nField w = 0x5 then .sub
      else if nField w = 0x6 then .shr else if nField w = 0x7 then .subn else if nField w = 0xE then .shl else .unknown : OpClass) := by
  have hf := ne_fixed_of_opField w (by rw [h]; decide)
  simp [classOf, h, hf.1, hf.2]

theorem classOf_op9 (w : Word) (h : opField w = 9) : classOf w =
    (if nField w = 0x0 then .sneVxVy else .unknown : OpClass) := by
  have hf := ne_fixed_of_opField w (by rw [h]; decide)
  simp [classOf, h, hf.1, hf.2]

theorem classOf_op10 (w : Word) (h : opField w = 10) : classOf w =
    .ldI := by
  have hf := ne_fixed_of_opField w (by rw [h]; decide)
  simp [classOf, h, hf.1, hf.2]

theorem classOf_op11 (w : Word) (h : opField w = 11) : classOf w =
    .jpOff := by
  have hf := ne_fixed_of_opField w (by rw [h]; decide)
  simp [classOf, h, hf.1, hf.2]

theorem classOf_op12 (w : Word) (h : opField w = 12) : classOf w =
    .rnd := by
  have hf := ne_fixed_of_opField w (by rw [h]; decide)
  simp [classOf, h, hf.1, hf.2]

theorem classOf_op13 (w : Word) (h : opField w = 13) : classOf w =
    .drw := by
  have hf := ne_fixed_of_opField w (by rw [h]; decide)
  simp [classOf, h, hf.1, hf.2]

theorem classOf_op14 (w : Word) (h : opField w = 14) : classOf w =
    (if kkField w = 0x9E then .skp else if kkField w = 0xA1 then .sknp else .unknown : OpClass) := by
  have hf := ne_fixed_of_opField w (by rw [h]; decide)
  simp [classOf, h, hf.1, hf.2]

theorem classOf_op15 (w : Word) (h : opField w = 15) : classOf w =
    (if kkField w = 0x07 then .ldVxDt else if kkField w = 0x0A then .ldVxK else if kkField w = 0x15 then .ldDtVx
      else if kkField w = 0x18 then .ldStVx else if kkField w = 0x1E then .addIVx else if kkField w = 0x29 then .ldFVx
      else if kkField w = 0x33 then .ldBVx else if kkField w = 0x55 then .stRange
      else if kkField w = 0x65 then .ldRange else .unknown : OpClass) := by
  have hf := ne_fixed_of_opField w (by rw [h]; decide)
  simp [classOf, h, hf.1, hf.2]

end Sys2Proof
end

