-- ==== Sys2Proof/Laws/Screen.lean ====
section
/-! SUPPORT. The laws of the display buffer and of one plotted pixel. -/

namespace Sys2Proof.Machine

/-- A pixel reads as it was last written, and a write leaves every other pixel alone. -/
theorem Display.pixel_setPixel (d : Display) (x px : Fin 64) (y py : Fin 32) (b : Bool) :
    (d.setPixel x y b).pixel px py = if x = px ∧ y = py then b else d.pixel px py := by
  by_cases hy : y = py
  · subst hy
    by_cases hx : x = px
    · subst hx; simp [Display.pixel, Display.setPixel]
    · have hx' : x.val ≠ px.val := fun e => hx (Fin.ext e)
      simp [Display.pixel, Display.setPixel, hx, Vector.getElem_set_ne, hx']
  · have hy' : y.val ≠ py.val := fun e => hy (Fin.ext e)
    simp [Display.pixel, Display.setPixel, hy, Vector.getElem_set_ne, hy']

@[simp] theorem Display.pixel_clear (px : Fin 64) (py : Fin 32) : Display.clear.pixel px py = false := by
  simp [Display.pixel, Display.clear]

/-- A placed bit lands on the one pixel that `place` gives, and on none when it is clipped. -/
theorem lands_iff_place (wrap : Bool) (cx cy : Nat) (px : Fin 64) (py : Fin 32) :
    lands wrap cx cy px py ↔ place wrap cx cy = .cell px py := by
  have := px.isLt
  have := py.isLt
  cases wrap with
  | true => simp [lands, place, Fin.ext_iff]
  | false =>
    by_cases h : cx > 63 ∨ cy > 31
    · simp only [lands, place, h, if_true, Bool.false_eq_true, if_false, reduceCtorEq, iff_false]
      omega
    · simp only [lands, place, h, Bool.false_eq_true, if_false, Placement.cell.injEq, Fin.ext_iff, Fin.ofNat]
      omega

/-- What one sprite bit does to a pixel: it flips the pixel it lands on. -/
theorem Canvas.plot_pixel (wrap : Bool) (cx cy : Nat) (c : Canvas) (px : Fin 64) (py : Fin 32) :
    (c.plot wrap cx cy).disp.pixel px py =
      if place wrap cx cy = .cell px py then !c.disp.pixel px py else c.disp.pixel px py := by
  unfold Canvas.plot
  split
  · simp_all
  · rename_i x y hp
    by_cases h : x = px ∧ y = py
    · obtain ⟨rfl, rfl⟩ := h
      simp [Display.pixel_setPixel, hp]
    · simp [Display.pixel_setPixel, hp, h]

/-- What one sprite bit does to the collision: it sets it when it lands on a pixel that is 1. -/
theorem Canvas.plot_hit (wrap : Bool) (cx cy : Nat) (c : Canvas) :
    (c.plot wrap cx cy).hit = true ↔
      c.hit = true ∨ ∃ px py, place wrap cx cy = .cell px py ∧ c.disp.pixel px py = true := by
  unfold Canvas.plot
  split
  · simp_all
  · rename_i x y hp
    simp [hp]

end Sys2Proof.Machine
end

