-- ==== Sys2Proof/Laws/Step.lean ====
section
/-! SUPPORT. What a step can do, said once: the cases of a step action and of the machine's step. -/

namespace Sys2Proof.Machine

/-- A step action does nothing outside Running; in Running it raises the fetch error, or executes the word at PC. -/
theorem stepAction_cases (s : State) :
    (s.runstate ≠ .running ∧ stepAction s = .next s) ∨
    (s.runstate = .running ∧ 0xFFE < s.pc.toNat ∧
      stepAction s = .next (haltedWith (.outOfBounds (BitVec.ofNat 16 (max s.pc.toNat 0x1000))) s)) ∨
    (s.runstate = .running ∧ s.pc.toNat ≤ 0xFFE ∧ stepAction s = execWord (s.word s.pc.toNat) s) := by
  unfold stepAction
  rw [State.fetch_eq]
  cases h : s.runstate with
  | halted e => simp
  | waitingForKey x => simp
  | running =>
    by_cases hp : s.pc.toNat ≤ 0xFFE
    · simp [hp]
    · exact .inr (.inl ⟨rfl, by omega, by simp [hp, raise_eq]⟩)

/-- Executing a word: UnknownOpcode, or the instruction it decodes to. -/
theorem execWord_cases (w : Word) (s : State) :
    (decode w = none ∧ execWord w s = .next (haltedWith (.unknownOpcode w s.pc) s)) ∨
    (∃ i, decode w = some i ∧ execWord w s = exec i s) := by
  unfold execWord
  cases h : decode w with
  | none => exact .inl ⟨rfl, rfl⟩
  | some i => exact .inr ⟨i, rfl, rfl⟩

/-- The machine's step is a step action when no other action is due, and the oldest action due otherwise. -/
theorem step_nil (s : State) (h : s.pending = []) : step s = stepAction s := by simp [step, nextAction, h]

theorem step_cons (s : State) (a : Action) (rest : List Action) (h : s.pending = a :: rest) :
    step s = act a (s.setPending rest) := by simp [step, nextAction, h]

/-! ## The reset action -/

theorem romFits_iff (rom : List Byte) (cfg : Config) : romFits rom cfg = true ↔ rom.length ≤ 4096 - cfg.loadOrigin.toNat := by
  simp [romFits]

/-- The reset action builds the fresh state when the ROM fits, and is refused otherwise. -/
theorem resetAction_cases (rom : List Byte) (cfg : Config) (s : State) :
    (rom.length ≤ 4096 - cfg.loadOrigin.toNat ∧ resetAction rom cfg s = .next (freshState rom cfg s)) ∨
    (4096 - cfg.loadOrigin.toNat < rom.length ∧ resetAction rom cfg s = .refused .invalidRomSize) := by
  unfold resetAction
  by_cases h : romFits rom cfg = true
  · exact .inl ⟨(romFits_iff rom cfg).mp h, by simp [h]⟩
  · exact .inr ⟨by rw [romFits_iff] at h; omega, by simp [h]⟩

/-- A byte of the fresh state: the ROM's, or the reset contents outside it. -/
theorem freshState_byte (rom : List Byte) (cfg : Config) (s : State) (a : Nat) :
    (freshState rom cfg s).byte a =
      if h : cfg.loadOrigin.toNat ≤ a ∧ a - cfg.loadOrigin.toNat < rom.length then rom[a - cfg.loadOrigin.toNat]'h.2
      else resetByte cfg a :=
  Memory.read_writeList cfg rom [] cfg.loadOrigin.toNat a

/-! ## Timers and key actions -/

/-- One count down: less one, floored at 0. -/
theorem countDown_toNat (b : Byte) : (countDown b).toNat = b.toNat - 1 := by
  revert b
  decide

/-- A key-down completes a wait, or only sets the key. -/
theorem keyDownAction_cases (k : Key) (s : State) :
    (∃ x, s.runstate = .waitingForKey x ∧ s.key k = false ∧ keyDownAction k s = completeWait x k (s.setKey k true)) ∨
    keyDownAction k s = s.setKey k true := by
  unfold keyDownAction
  cases h : s.runstate with
  | running => exact .inr rfl
  | halted e => exact .inr rfl
  | waitingForKey x =>
    cases hk : s.key k with
    | true => exact .inr (by simp)
    | false => exact .inl ⟨x, rfl, rfl, by simp⟩

end Sys2Proof.Machine
end

