-- ==== Sys2Proof/Laws/Exec.lean ====
section
/-! SUPPORT. What each instruction that makes a check of its own can answer; every other instruction answers one next state
by definition. Provers cite these lemmas instead of unfolding the meanings. -/

namespace Sys2Proof.Machine

theorem exec_ret_cases (s : State) :
    (s.stack = [] ∧ exec .ret s = .next (haltedWith .stackUnderflow s)) ∨
    (∃ below top, s.stack = below ++ [top] ∧ exec .ret s = .next ((s.setStack below).setPc top)) := by
  rcases stack_cases s.stack with h | ⟨l, w, h⟩
  · exact .inl ⟨h, by simp [exec, execRet, State.pop_nil s h, raise_eq]⟩
  · exact .inr ⟨l, w, h, by simp [exec, execRet, State.pop_append s l w h]⟩

theorem exec_call_cases (nnn : Addr) (s : State) :
    (s.stack.length = 16 ∧ exec (.call nnn) s = .next (haltedWith .stackOverflow s)) ∨
    (s.stack.length ≠ 16 ∧
      exec (.call nnn) s = .next ((s.setStack (s.stack ++ [s.pc + 2])).setPc (zext16 nnn))) := by
  by_cases h : s.stack.length = 16
  · exact .inl ⟨h, by simp [exec, execCall, State.push_eq, h, raise_eq]⟩
  · exact .inr ⟨h, by simp [exec, execCall, State.push_eq, h, State.nextPc]⟩

/-- A guarded access: the range error, or what follows. -/
theorem withRange_cases (a n : Nat) (s : State) (k : Result) :
    (0x1000 < a + n ∧ rangeBreach a n = some (.outOfBounds (BitVec.ofNat 16 (max a 0x1000))) ∧
      withRange a n s k = .next (haltedWith (.outOfBounds (BitVec.ofNat 16 (max a 0x1000))) s)) ∨
    (a + n ≤ 0x1000 ∧ rangeBreach a n = none ∧ withRange a n s k = k) := by
  rw [withRange_eq]
  cases h : rangeBreach a n with
  | none => exact .inr ⟨rangeBreach_none.mp h, rfl, rfl⟩
  | some e =>
    obtain ⟨h1, rfl⟩ := rangeBreach_some h
    exact .inl ⟨h1, rfl, rfl⟩

theorem exec_ldBVx_cases (x : Reg) (s : State) :
    (0x1000 < s.i.toNat + 3 ∧
      exec (.ldBVx x) s = .next (haltedWith (.outOfBounds (BitVec.ofNat 16 (max s.i.toNat 0x1000))) s)) ∨
    (s.i.toNat + 3 ≤ 0x1000 ∧ exec (.ldBVx x) s = .next (s.store s.i.toNat (bcdDigits (s.reg x))).advance) := by
  rcases withRange_cases s.i.toNat 3 s (.next (s.store s.i.toNat (bcdDigits (s.reg x))).advance) with h | h
  · exact .inl ⟨h.1, h.2.2⟩
  · exact .inr ⟨h.1, h.2.2⟩

theorem exec_stRange_cases (x : Reg) (s : State) :
    (0x1000 < s.i.toNat + (x.val + 1) ∧
      exec (.stRange x) s = .next (haltedWith (.outOfBounds (BitVec.ofNat 16 (max s.i.toNat 0x1000))) s)) ∨
    (s.i.toNat + (x.val + 1) ≤ 0x1000 ∧ exec (.stRange x) s = .next (s.store s.i.toNat (s.regsTo x)).advance) := by
  rcases withRange_cases s.i.toNat (x.val + 1) s (.next (s.store s.i.toNat (s.regsTo x)).advance) with h | h
  · exact .inl ⟨h.1, h.2.2⟩
  · exact .inr ⟨h.1, h.2.2⟩

theorem exec_ldRange_cases (x : Reg) (s : State) :
    (0x1000 < s.i.toNat + (x.val + 1) ∧
      exec (.ldRange x) s = .next (haltedWith (.outOfBounds (BitVec.ofNat 16 (max s.i.toNat 0x1000))) s)) ∨
    (s.i.toNat + (x.val + 1) ≤ 0x1000 ∧
      exec (.ldRange x) s = .next (s.loadRegs (s.bytes s.i.toNat (x.val + 1))).advance) := by
  rcases withRange_cases s.i.toNat (x.val + 1) s (.next (s.loadRegs (s.bytes s.i.toNat (x.val + 1))).advance) with h | h
  · exact .inl ⟨h.1, h.2.2⟩
  · exact .inr ⟨h.1, h.2.2⟩

theorem State.bytes_zero (s : State) (a : Nat) : s.bytes a 0 = [] := rfl

/-- DRW either meets its range error, with n > 0, or commits the drawn canvas; for n = 0 the list of rows is empty. -/
theorem exec_drw_cases (x y : Reg) (n : Rows) (s : State) :
    (0 < n.val ∧ 0x1000 < s.i.toNat + n.val ∧
      exec (.drw x y n) s = .next (haltedWith (.outOfBounds (BitVec.ofNat 16 (max s.i.toNat 0x1000))) s)) ∨
    ((n.val = 0 ∨ s.i.toNat + n.val ≤ 0x1000) ∧
      exec (.drw x y n) s = .next (s.commitDraw (s.drawSprite x y (s.bytes s.i.toNat n.val))).advance) := by
  by_cases hn : n.val = 0
  · exact .inr ⟨.inl hn, by simp [exec, execDrw, hn, State.bytes_zero]⟩
  · rcases withRange_cases s.i.toNat n.val s
      (.next (s.commitDraw (s.drawSprite x y (s.bytes s.i.toNat n.val))).advance) with h | h
    · exact .inl ⟨by omega, h.1, by simpa [exec, execDrw, hn] using h.2.2⟩
    · exact .inr ⟨.inr h.1, by simpa [exec, execDrw, hn] using h.2.2⟩

end Sys2Proof.Machine
end

