-- ==== Sys2Proof/Laws/PerInstr.lean ====
section
/-! SUPPORT. Per instruction: the word of every instruction matches the mask and the match value of its row of
spec/opcode_table.json. -/

namespace Sys2Proof.Laws

/-! ## The masks of the opcode table in terms of the fields -/

theorem word_bit (op : BitVec 4) (low : BitVec 12) (k : Nat) :
    BitVec.getLsbD (w := 16) (op ++ low) k = if k < 12 then low.getLsbD k else op.getLsbD (k - 12) :=
  BitVec.getLsbD_append

theorem low_bit_of_nibble (hi : BitVec 8) (lo : BitVec 4) (k : Nat) :
    BitVec.getLsbD (w := 12) (hi ++ lo) k = if k < 4 then lo.getLsbD k else hi.getLsbD (k - 4) :=
  BitVec.getLsbD_append

theorem low_bit_of_byte (hi : BitVec 4) (lo : BitVec 8) (k : Nat) :
    BitVec.getLsbD (w := 12) (hi ++ lo) k = if k < 8 then lo.getLsbD k else hi.getLsbD (k - 8) :=
  BitVec.getLsbD_append

theorem and_opMask (w : Word) : w &&& 0xF000 = opField w ++ (0 : BitVec 12) := by
  apply BitVec.eq_of_getLsbD_eq
  intro k hk
  rw [word_bit]
  interval_cases k <;> simp [opField]

theorem and_opNMask (w : Word) : w &&& 0xF00F = opField w ++ ((0 : BitVec 8) ++ w.extractLsb' 0 4) := by
  apply BitVec.eq_of_getLsbD_eq
  intro k hk
  rw [word_bit, low_bit_of_nibble]
  interval_cases k <;> simp [opField]

theorem and_opKkMask (w : Word) : w &&& 0xF0FF = opField w ++ ((0 : BitVec 4) ++ kkField w) := by
  apply BitVec.eq_of_getLsbD_eq
  intro k hk
  rw [word_bit, low_bit_of_byte]
  interval_cases k <;> simp [opField, kkField]

theorem lowNibble_wordXyn (op : BitVec 4) (x y : Reg) (n : BitVec 4) : (wordXyn op x y n).extractLsb' 0 4 = n := by
  apply BitVec.eq_of_toNat_eq
  have := n.isLt
  rw [BitVec.extractLsb'_toNat, wordXyn_toNat, Nat.shiftRight_zero]
  omega

/-! ## The rows -/

/-- The mask and the match value of an instruction's row of spec/opcode_table.json. -/
def tableRow (i : Instr) : Word × Word :=
  match i with
  | .cls => (0xFFFF, 0x00E0)
  | .ret => (0xFFFF, 0x00EE)
  | .jp _ => (0xF000, 0x1000)
  | .call _ => (0xF000, 0x2000)
  | .seVxKk _ _ => (0xF000, 0x3000)
  | .sneVxKk _ _ => (0xF000, 0x4000)
  | .seVxVy _ _ => (0xF00F, 0x5000)
  | .ldVxKk _ _ => (0xF000, 0x6000)
  | .addVxKk _ _ => (0xF000, 0x7000)
  | .ldVxVy _ _ => (0xF00F, 0x8000)
  | .orVxVy _ _ => (0xF00F, 0x8001)
  | .andVxVy _ _ => (0xF00F, 0x8002)
  | .xorVxVy _ _ => (0xF00F, 0x8003)
  | .addVxVy _ _ => (0xF00F, 0x8004)
  | .subVxVy _ _ => (0xF00F, 0x8005)
  | .shrVxVy _ _ => (0xF00F, 0x8006)
  | .subnVxVy _ _ => (0xF00F, 0x8007)
  | .shlVxVy _ _ => (0xF00F, 0x800E)
  | .sneVxVy _ _ => (0xF00F, 0x9000)
  | .ldI _ => (0xF000, 0xA000)
  | .jpOff _ => (0xF000, 0xB000)
  | .rnd _ _ => (0xF000, 0xC000)
  | .drw _ _ _ => (0xF000, 0xD000)
  | .skp _ => (0xF0FF, 0xE09E)
  | .sknp _ => (0xF0FF, 0xE0A1)
  | .ldVxDt _ => (0xF0FF, 0xF007)
  | .ldVxK _ => (0xF0FF, 0xF00A)
  | .ldDtVx _ => (0xF0FF, 0xF015)
  | .ldStVx _ => (0xF0FF, 0xF018)
  | .addIVx _ => (0xF0FF, 0xF01E)
  | .ldFVx _ => (0xF0FF, 0xF029)
  | .ldBVx _ => (0xF0FF, 0xF033)
  | .stRange _ => (0xF0FF, 0xF055)
  | .ldRange _ => (0xF0FF, 0xF065)

/-- The instruction's word matches the row of its own mnemonic. -/
def TableRow.Statement (i : Instr) : Prop := encode i &&& (tableRow i).1 = (tableRow i).2

theorem TableRow.cls : TableRow.Statement .cls := by
  rfl

theorem TableRow.ret : TableRow.Statement .ret := by
  rfl

theorem TableRow.jp (nnn : Addr) : TableRow.Statement (.jp nnn) := by
  exact (and_opMask _).trans (by rw [encode, opField_wordAddr]; rfl)

theorem TableRow.call (nnn : Addr) : TableRow.Statement (.call nnn) := by
  exact (and_opMask _).trans (by rw [encode, opField_wordAddr]; rfl)

theorem TableRow.seVxKk (x : Reg) (kk : Byte) : TableRow.Statement (.seVxKk x kk) := by
  exact (and_opMask _).trans (by rw [encode, opField_wordXkk]; rfl)

theorem TableRow.sneVxKk (x : Reg) (kk : Byte) : TableRow.Statement (.sneVxKk x kk) := by
  exact (and_opMask _).trans (by rw [encode, opField_wordXkk]; rfl)

theorem TableRow.seVxVy (x y : Reg) : TableRow.Statement (.seVxVy x y) := by
  exact (and_opNMask _).trans (by rw [encode, opField_wordXyn, lowNibble_wordXyn]; rfl)

theorem TableRow.ldVxKk (x : Reg) (kk : Byte) : TableRow.Statement (.ldVxKk x kk) := by
  exact (and_opMask _).trans (by rw [encode, opField_wordXkk]; rfl)

theorem TableRow.addVxKk (x : Reg) (kk : Byte) : TableRow.Statement (.addVxKk x kk) := by
  exact (and_opMask _).trans (by rw [encode, opField_wordXkk]; rfl)

theorem TableRow.ldVxVy (x y : Reg) : TableRow.Statement (.ldVxVy x y) := by
  exact (and_opNMask _).trans (by rw [encode, opField_wordXyn, lowNibble_wordXyn]; rfl)

theorem TableRow.orVxVy (x y : Reg) : TableRow.Statement (.orVxVy x y) := by
  exact (and_opNMask _).trans (by rw [encode, opField_wordXyn, lowNibble_wordXyn]; rfl)

theorem TableRow.andVxVy (x y : Reg) : TableRow.Statement (.andVxVy x y) := by
  exact (and_opNMask _).trans (by rw [encode, opField_wordXyn, lowNibble_wordXyn]; rfl)

theorem TableRow.xorVxVy (x y : Reg) : TableRow.Statement (.xorVxVy x y) := by
  exact (and_opNMask _).trans (by rw [encode, opField_wordXyn, lowNibble_wordXyn]; rfl)

theorem TableRow.addVxVy (x y : Reg) : TableRow.Statement (.addVxVy x y) := by
  exact (and_opNMask _).trans (by rw [encode, opField_wordXyn, lowNibble_wordXyn]; rfl)

theorem TableRow.subVxVy (x y : Reg) : TableRow.Statement (.subVxVy x y) := by
  exact (and_opNMask _).trans (by rw [encode, opField_wordXyn, lowNibble_wordXyn]; rfl)

theorem TableRow.shrVxVy (x y : Reg) : TableRow.Statement (.shrVxVy x y) := by
  exact (and_opNMask _).trans (by rw [encode, opField_wordXyn, lowNibble_wordXyn]; rfl)

theorem TableRow.subnVxVy (x y : Reg) : TableRow.Statement (.subnVxVy x y) := by
  exact (and_opNMask _).trans (by rw [encode, opField_wordXyn, lowNibble_wordXyn]; rfl)

theorem TableRow.shlVxVy (x y : Reg) : TableRow.Statement (.shlVxVy x y) := by
  exact (and_opNMask _).trans (by rw [encode, opField_wordXyn, lowNibble_wordXyn]; rfl)

theorem TableRow.sneVxVy (x y : Reg) : TableRow.Statement (.sneVxVy x y) := by
  exact (and_opNMask _).trans (by rw [encode, opField_wordXyn, lowNibble_wordXyn]; rfl)

theorem TableRow.ldI (nnn : Addr) : TableRow.Statement (.ldI nnn) := by
  exact (and_opMask _).trans (by rw [encode, opField_wordAddr]; rfl)

theorem TableRow.jpOff (nnn : Addr) : TableRow.Statement (.jpOff nnn) := by
  exact (and_opMask _).trans (by rw [encode, opField_wordAddr]; rfl)

theorem TableRow.rnd (x : Reg) (kk : Byte) : TableRow.Statement (.rnd x kk) := by
  exact (and_opMask _).trans (by rw [encode, opField_wordXkk]; rfl)

theorem TableRow.drw (x y : Reg) (n : Rows) : TableRow.Statement (.drw x y n) := by
  exact (and_opMask _).trans (by rw [encode, opField_wordXyn]; rfl)

theorem TableRow.skp (x : Reg) : TableRow.Statement (.skp x) := by
  exact (and_opKkMask _).trans (by rw [encode, opField_wordXkk, kkField_wordXkk]; rfl)

theorem TableRow.sknp (x : Reg) : TableRow.Statement (.sknp x) := by
  exact (and_opKkMask _).trans (by rw [encode, opField_wordXkk, kkField_wordXkk]; rfl)

theorem TableRow.ldVxDt (x : Reg) : TableRow.Statement (.ldVxDt x) := by
  exact (and_opKkMask _).trans (by rw [encode, opField_wordXkk, kkField_wordXkk]; rfl)

theorem TableRow.ldVxK (x : Reg) : TableRow.Statement (.ldVxK x) := by
  exact (and_opKkMask _).trans (by rw [encode, opField_wordXkk, kkField_wordXkk]; rfl)

theorem TableRow.ldDtVx (x : Reg) : TableRow.Statement (.ldDtVx x) := by
  exact (and_opKkMask _).trans (by rw [encode, opField_wordXkk, kkField_wordXkk]; rfl)

theorem TableRow.ldStVx (x : Reg) : TableRow.Statement (.ldStVx x) := by
  exact (and_opKkMask _).trans (by rw [encode, opField_wordXkk, kkField_wordXkk]; rfl)

theorem TableRow.addIVx (x : Reg) : TableRow.Statement (.addIVx x) := by
  exact (and_opKkMask _).trans (by rw [encode, opField_wordXkk, kkField_wordXkk]; rfl)

theorem TableRow.ldFVx (x : Reg) : TableRow.Statement (.ldFVx x) := by
  exact (and_opKkMask _).trans (by rw [encode, opField_wordXkk, kkField_wordXkk]; rfl)

theorem TableRow.ldBVx (x : Reg) : TableRow.Statement (.ldBVx x) := by
  exact (and_opKkMask _).trans (by rw [encode, opField_wordXkk, kkField_wordXkk]; rfl)

theorem TableRow.stRange (x : Reg) : TableRow.Statement (.stRange x) := by
  exact (and_opKkMask _).trans (by rw [encode, opField_wordXkk, kkField_wordXkk]; rfl)

theorem TableRow.ldRange (x : Reg) : TableRow.Statement (.ldRange x) := by
  exact (and_opKkMask _).trans (by rw [encode, opField_wordXkk, kkField_wordXkk]; rfl)

end Sys2Proof.Laws
end

