-- ==== Sys2Proof/Tests/Slice0.lean ====
section
/-! SUPPORT. Tests and witnesses. Every expected value comes from spec/95_test_vectors.md (its vector is named), from a
table of the spec, or is worked out by hand from a rule; none is the model's own answer.
A `witness_` theorem shows a state and operands that meet the hypotheses of the obligation it names, clause by clause at
the boundary values of its ranges. -/

namespace Sys2Proof.Tests

open Sys2Proof.Machine

/-! ## Small states -/

/-- The standard configuration with both OPEN toggles false. -/
def cfgOff : Config := { Config.standard with shiftUsesVy := false, jumpOffsetVx := false, cpuClockHz := 0 }

/-- The standard configuration with both OPEN toggles and WRAP_SPRITES true. -/
def cfgOn : Config := { cfgOff with shiftUsesVy := true, jumpOffsetVx := true, wrapSprites := true }

/-- The reset state with the toggles false. -/
def off : State := State.init cfgOff

/-- The reset state with the toggles and WRAP_SPRITES true. -/
def on : State := State.init cfgOn

/-- One step of the machine on the word `w`, fetched at PC. -/
def run (w : Nat) (s : State) : Result := step (s.withFetchWord 16 w)

/-- What `f` reads of a next state; nothing of a fault or a refusal. -/
def seen {α : Type} (f : State → α) (r : Result) : Option α :=
  match r with
  | .next t => some (f t)
  | .fault _ => none
  | .refused _ => none

/-- A state that has halted with an error. -/
def halted (e : ErrorRecord) : State := off.setRunstate (.halted e)

/-- A stack of `n` return addresses. -/
def stackOf (n : Nat) : List Word := List.replicate n 0x202

/-- The error of a decoding that fails. -/
def errorOf (r : Except DecodeError (Instr × List Byte)) : Option DecodeError :=
  match r with
  | .ok _ => none
  | .error e => some e

/-! ## Well-formedness: an ill-formed term for each check -/

/-- 0xD123 sliced by hand, R68. -/
def drawDescriptor : Descriptor := { cls := .drw, x := 1, y := 2, n := 3, kk := 0x23, nnn := 0x123 }

theorem test_wf_accepts_draw : drawDescriptor.wf = true := by decide

theorem test_wf_refuses_kk : ({ drawDescriptor with kk := 0x24 } : Descriptor).kkAgrees = false := by decide

theorem test_wf_refuses_nnn : ({ drawDescriptor with nnn := 0x223 } : Descriptor).nnnAgrees = false := by decide

/-- 8XY8 is no instruction (R73), so no class of major 8 has n = 8; 5XY1 is no SE_VX_VY (R76). -/
theorem test_wf_refuses_fixed_field :
    ({ drawDescriptor with cls := .seVxVy } : Descriptor).fixedFieldsMatch = false ∧
    ({ drawDescriptor with cls := .seVxVy } : Descriptor).wf = false := by decide

/-- A font of 80 bytes fits at 0xFB0 and not at 0xFB1. -/
theorem test_wf_font_fits :
    ({ cfgOff with fontBase := 0xFB0 } : Config).fontFits = true ∧
    ({ cfgOff with fontBase := 0xFB1 } : Config).fontFits = false := by decide

/-! ## Decoding: words written out bit by bit from the patterns of spec/opcode_table.json with X = 0xA, Y = 0x6, N = 0x5,
KK = 0x7F and NNN = 0xABC in place -/

theorem test_decode_control :
    decode 0b0000000011100000 = some .cls ∧ decode 0b0000000011101110 = some .ret ∧
    decode 0b0001101010111100 = some (.jp 0xABC) ∧ decode 0b0010101010111100 = some (.call 0xABC) ∧
    decode 0b1011101010111100 = some (.jpOff 0xABC) := by decide

theorem test_decode_skips :
    decode 0b0011101001111111 = some (.seVxKk 0xA 0x7F) ∧ decode 0b0100101001111111 = some (.sneVxKk 0xA 0x7F) ∧
    decode 0b0101101001100000 = some (.seVxVy 0xA 0x6) ∧ decode 0b1001101001100000 = some (.sneVxVy 0xA 0x6) ∧
    decode 0b1110101010011110 = some (.skp 0xA) ∧ decode 0b1110101010100001 = some (.sknp 0xA) := by decide

theorem test_decode_immediates :
    decode 0b0110101001111111 = some (.ldVxKk 0xA 0x7F) ∧ decode 0b0111101001111111 = some (.addVxKk 0xA 0x7F) ∧
    decode 0b1100101001111111 = some (.rnd 0xA 0x7F) := by decide

theorem test_decode_register_alu :
    decode 0b1000101001100000 = some (.ldVxVy 0xA 0x6) ∧ decode 0b1000101001100001 = some (.orVxVy 0xA 0x6) ∧
    decode 0b1000101001100010 = some (.andVxVy 0xA 0x6) ∧ decode 0b1000101001100011 = some (.xorVxVy 0xA 0x6) ∧
    decode 0b1000101001100100 = some (.addVxVy 0xA 0x6) ∧ decode 0b1000101001100101 = some (.subVxVy 0xA 0x6) ∧
    decode 0b1000101001100110 = some (.shrVxVy 0xA 0x6) ∧ decode 0b1000101001100111 = some (.subnVxVy 0xA 0x6) ∧
    decode 0b1000101001101110 = some (.shlVxVy 0xA 0x6) := by decide

theorem test_decode_index_memory_display :
    decode 0b1010101010111100 = some (.ldI 0xABC) ∧ decode 0b1101101001100101 = some (.drw 0xA 0x6 5) ∧
    decode 0b1111101000011110 = some (.addIVx 0xA) ∧ decode 0b1111101000101001 = some (.ldFVx 0xA) ∧
    decode 0b1111101000110011 = some (.ldBVx 0xA) ∧ decode 0b1111101001010101 = some (.stRange 0xA) ∧
    decode 0b1111101001100101 = some (.ldRange 0xA) := by decide

theorem test_decode_keys_timers :
    decode 0b1111101000000111 = some (.ldVxDt 0xA) ∧ decode 0b1111101000001010 = some (.ldVxK 0xA) ∧
    decode 0b1111101000010101 = some (.ldDtVx 0xA) ∧ decode 0b1111101000011000 = some (.ldStVx 0xA) := by decide

/-- The UNKNOWN rows of L2.1. -/
theorem test_decode_unknown :
    ([0x0000, 0x0123, 0x00E1, 0x00FF, 0x5121, 0x8128, 0x812D, 0x812F, 0x9121, 0xE09F, 0xE1A2, 0xF0FF, 0xF130, 0xF175,
      0xFFFF] : List Word).all (fun w => decode w = none) = true := by decide

/-- R54 and R65: big-endian, two bytes an instruction, the rest is left; one byte is no instruction. -/
theorem test_decode_bytes :
    (decodeBytes [0x12, 0x00, 0x34]).toOption = some (.jp 0x200, [0x34]) ∧ errorOf (decodeBytes [0x12]) = some .truncated ∧
    errorOf (decodeBytes [0x51, 0x21, 0x00]) = some (.unknownOpcode 0x5121) := by decide

theorem test_table_word :
    decodeTableWord 16 0xD123 = some (.drw 1 2 3) ∧ decodeTableWord 16 0x0000 = none := by decide

/-! ## Control (L2.3, L1.2, L1.7) -/

theorem test_ret_pops :
    seen (fun t => (t.pc, t.stack)) (run 0x00EE ((off.setPc 0x300).setStack [0x202])) = some (0x202, []) := by decide

theorem test_ret_underflow :
    seen (fun t => (t.pc, t.runstate)) (run 0x00EE off) = some (0x200, .halted .stackUnderflow) := by decide

theorem test_jp_self_loop : seen (fun t => t.pc) (run 0x1200 off) = some 0x200 := by decide

theorem test_call_pushes_next :
    seen (fun t => (t.pc, t.stack.length, t.stack.getLast?)) (run 0x2300 (off.setStack (List.replicate 15 0x111)))
      = some (0x300, 16, some 0x202) := by decide

theorem test_call_overflow :
    seen (fun t => (t.pc, t.stack.length, t.runstate)) (run 0x2300 (off.setStack (stackOf 16)))
      = some (0x200, 16, .halted .stackOverflow) := by decide

theorem test_se_kk :
    seen (fun t => t.pc) (run 0x3000 off) = some 0x204 ∧
    seen (fun t => t.pc) (run 0x3000 (off.setReg 0 1)) = some 0x202 := by decide

theorem test_sne_kk :
    seen (fun t => t.pc) (run 0x4542 (off.setReg 5 0x42)) = some 0x202 ∧
    seen (fun t => t.pc) (run 0x4542 (off.setReg 5 0x43)) = some 0x204 := by decide

theorem test_se_vy :
    seen (fun t => t.pc) (run 0x5550 (off.setReg 5 0x42)) = some 0x204 ∧
    seen (fun t => t.pc) (run 0x5560 (off.setReg 5 0x42)) = some 0x202 := by decide

theorem test_sne_vy :
    seen (fun t => t.pc) (run 0x9560 ((off.setReg 5 0x42).setReg 6 0x43)) = some 0x204 ∧
    seen (fun t => t.pc) (run 0x9550 (off.setReg 5 0x42)) = some 0x202 := by decide

theorem test_jp_off_v0 :
    seen (fun t => t.pc) (run 0xB200 ((off.setReg 0 4).setReg 2 0x10)) = some 0x204 ∧
    seen (fun t => t.pc) (run 0xBFFF (off.setReg 0 0xFF)) = some 0x10FE := by decide

theorem test_jp_off_vx :
    seen (fun t => t.pc) (run 0xB200 ((on.setReg 0 4).setReg 2 0x10)) = some 0x210 ∧
    seen (fun t => t.pc) (run 0xBFFF (on.setReg 15 0xFF)) = some 0x10FE := by decide

/-! ## Register ALU (L2.4) -/

theorem test_ld_kk : seen (fun t => (t.reg 15, t.pc)) (run 0x6FFF off) = some (0xFF, 0x202) := by decide

theorem test_add_kk_no_flag :
    seen (fun t => (t.reg 0, t.reg 15)) (run 0x7001 ((off.setReg 0 0xFF).setReg 15 0x55)) = some (0x00, 0x55) := by decide

theorem test_ld_vy : seen (fun t => (t.reg 14, t.reg 7)) (run 0x8E70 (off.setReg 7 0x12)) = some (0x12, 0x12) := by decide

theorem test_or :
    seen (fun t => (t.reg 0, t.reg 15)) (run 0x8011 (((off.setReg 0 0x0F).setReg 1 0xF0).setReg 15 0x55))
      = some (0xFF, 0x55) := by decide

theorem test_and : seen (fun t => t.reg 0) (run 0x8012 ((off.setReg 0 0x0F).setReg 1 0x3C)) = some 0x0C := by decide

/-- The second result by hand: 0F XOR 3C = 33. -/
theorem test_xor :
    seen (fun t => t.reg 0) (run 0x8003 (off.setReg 0 0x5A)) = some 0x00 ∧
    seen (fun t => t.reg 0) (run 0x8013 ((off.setReg 0 0x0F).setReg 1 0x3C)) = some 0x33 := by decide

theorem test_add_carry :
    seen (fun t => (t.reg 0, t.reg 15)) (run 0x8014 ((off.setReg 0 0xFF).setReg 1 0x01)) = some (0x00, 1) ∧
    seen (fun t => (t.reg 0, t.reg 15)) (run 0x8014 ((off.setReg 0 0x80).setReg 1 0x7F)) = some (0xFF, 0) := by decide

theorem test_add_into_vf : seen (fun t => t.reg 15) (run 0x8F14 ((off.setReg 15 0xFF).setReg 1 0x01)) = some 1 := by decide

/-- L1.12 is the second. -/
theorem test_sub_borrow :
    seen (fun t => (t.reg 0, t.reg 15)) (run 0x8015 (off.setReg 1 0x01)) = some (0xFF, 0) ∧
    seen (fun t => (t.reg 0, t.reg 15)) (run 0x8015 ((off.setReg 0 5).setReg 1 5)) = some (0x00, 1) := by decide

theorem test_sub_into_vf : seen (fun t => t.reg 15) (run 0x8FF5 (off.setReg 15 0x09)) = some 1 := by decide

theorem test_shr_vx :
    seen (fun t => (t.reg 0, t.reg 15)) (run 0x8006 (off.setReg 0 0x81)) = some (0x40, 1) ∧
    seen (fun t => t.reg 15) (run 0x8F06 (off.setReg 15 0x02)) = some 0 := by decide

theorem test_shr_vy :
    seen (fun t => (t.reg 1, t.reg 15, t.reg 0)) (run 0x8106 (on.setReg 0 0x81)) = some (0x40, 1, 0x81) := by decide

theorem test_subn :
    seen (fun t => (t.reg 0, t.reg 15)) (run 0x8017 ((off.setReg 0 0x01).setReg 1 0x03)) = some (0x02, 1) ∧
    seen (fun t => (t.reg 0, t.reg 15)) (run 0x8017 ((off.setReg 0 0x03).setReg 1 0x01)) = some (0xFE, 0) := by decide

theorem test_shl_vx : seen (fun t => (t.reg 0, t.reg 15)) (run 0x800E (off.setReg 0 0x81)) = some (0x02, 1) := by decide

/-- P3 after step 6 with SHIFT_USES_VY true: V0 = 0xFA, V1 becomes 0xF4, VF = 1. -/
theorem test_shl_vy :
    seen (fun t => (t.reg 1, t.reg 15)) (run 0x810E ((on.setReg 0 0xFA).setReg 1 0x64)) = some (0xF4, 1) := by decide

/-- L2.4: the draw is masked; stated for the draws 0xA5 and 0xFF through the meaning's own parameter. -/
theorem test_rnd_masks :
    seen (fun t => (t.reg 0, t.draws)) (rndWith 0xA5 0 0x0F off) = some (0x05, 1) ∧
    seen (fun t => t.reg 0) (rndWith 0xFF 0 0x00 off) = some 0x00 := by decide

/-! ## Index and memory (L2.5, L1.13) -/

theorem test_ld_i : seen (fun t => t.i) (run 0xA123 off) = some 0x123 := by decide

theorem test_add_i_no_fault :
    seen (fun t => (t.i, t.reg 15)) (run 0xF01E (((off.setI 0xFFF).setReg 0 1).setReg 15 7)) = some (0x1000, 7) := by decide

theorem test_add_i_wraps : seen (fun t => t.i) (run 0xF01E ((off.setI 0xFFFF).setReg 0 2)) = some 0x0001 := by decide

theorem test_ld_f :
    seen (fun t => t.i) (run 0xF029 (off.setReg 0 0x0A)) = some 0x032 ∧
    seen (fun t => t.i) (run 0xF029 (off.setReg 0 0x1A)) = some 0x032 := by decide

theorem test_bcd_top_of_memory :
    seen (fun t => t.bytes 0xFFD 3) (run 0xF033 ((off.setI 0xFFD).setReg 0 123)) = some [1, 2, 3] := by decide

theorem test_bcd_out_of_bounds :
    seen (fun t => (t.runstate, t.bytes 0xFFE 2)) (run 0xF033 ((off.setI 0xFFE).setReg 0 123))
      = some (.halted (.outOfBounds 0x1000), [0, 0]) := by decide

theorem test_store_range :
    seen (fun t => (t.bytes 0x300 4, t.i)) (run 0xF255 ((((off.setI 0x300).setReg 0 1).setReg 1 2).setReg 2 3))
      = some ([1, 2, 3, 0], 0x300) := by decide

theorem test_store_range_out_of_bounds :
    seen (fun t => (t.runstate, t.byte 0xFFF)) (run 0xF155 (((off.setI 0xFFF).setReg 0 0xAB).setReg 1 0xCD))
      = some (.halted (.outOfBounds 0x1000), 0) ∧
    seen (fun t => (t.runstate, t.byte 0xFFF)) (run 0xF055 ((off.setI 0xFFF).setReg 0 0xAB)) = some (.running, 0xAB) := by decide

theorem test_load_range :
    seen (fun t => (t.reg 0, t.reg 15, t.i))
      (run 0xFF65 ((off.setI 0x300).store 0x300 ((List.range 16).map (fun k => BitVec.ofNat 8 (0x10 + k)))))
      = some (0x10, 0x1F, 0x300) := by decide

theorem test_load_range_out_of_bounds :
    seen (fun t => t.runstate) (run 0xFF65 (off.setI 0xFFFF)) = some (.halted (.outOfBounds 0xFFFF)) := by decide

/-! ## Display (L2.6) -/

theorem test_cls :
    seen (fun t => t.pixel 63 31) (run 0x00E0 (off.setDisp (off.disp.setPixel 63 31 true))) = some false := by decide

/-- The rows 0 and 1 of the font's digit 0 (F0, 90) at (0, 0); then pixel (1, 0) on and the row C0 drawn at (0, 0):
(0, 0) comes on, (1, 0) goes off, VF = 1. -/
theorem test_drw_flips_and_collides :
    seen (fun t => ((List.range 8).map (fun c => t.pixel (Fin.ofNat 64 c) 0),
        (List.range 8).map (fun c => t.pixel (Fin.ofNat 64 c) 1), t.reg 15)) (run 0xD015 off)
      = some ([true, true, true, true, false, false, false, false],
          [true, false, false, true, false, false, false, false], 0) ∧
    seen (fun t => (t.pixel 0 0, t.pixel 1 0, t.reg 15))
      (run 0xD011 (((off.setDisp (off.disp.setPixel 1 0 true)).setI 0x300).store 0x300 [0xC0])) = some (true, false, 1) := by
  decide

/-- The row FF drawn at (62, 0), clipped and wrapped; the bounds of the sprite read; the height 0. -/
theorem test_drw_edges_and_bounds :
    seen (fun t => (t.pixel 62 0, t.pixel 63 0, t.pixel 0 0, t.pixel 5 0, t.pixel 6 0))
      (run 0xD011 (((off.setI 0x300).setReg 0 62).store 0x300 [0xFF])) = some (true, true, false, false, false) ∧
    seen (fun t => (t.pixel 62 0, t.pixel 63 0, t.pixel 0 0, t.pixel 5 0, t.pixel 6 0))
      (run 0xD011 (((on.setI 0x300).setReg 0 62).store 0x300 [0xFF])) = some (true, true, true, true, false) ∧
    seen (fun t => t.runstate) (run 0xD012 (off.setI 0xFFF)) = some (.halted (.outOfBounds 0x1000)) ∧
    seen (fun t => t.runstate) (run 0xD011 (off.setI 0xFFF)) = some .running ∧
    seen (fun t => (t.runstate, t.reg 15)) (run 0xD010 ((off.setI 0x1000).setReg 15 5)) = some (.running, 0) := by decide

/-! ## Keys and timers (L2.7) -/

theorem test_skp : seen (fun t => t.pc) (run 0xE19E ((off.setKey 5 true).setReg 1 0x15)) = some 0x204 := by decide

theorem test_sknp : seen (fun t => t.pc) (run 0xE1A1 ((off.setKey 5 true).setReg 1 5)) = some 0x202 := by decide

theorem test_ld_vx_dt :
    seen (fun t => t.reg 0) (run 0xF007 (tickAction (tickAction (off.setDt 3)))) = some 1 := by decide

theorem test_ld_vx_k_waits :
    seen (fun t => (t.runstate, t.pc, t.reg 3)) (run 0xF30A (off.setKey 7 true))
      = some (.waitingForKey 3, 0x200, 0) := by decide

theorem test_ld_dt_vx : seen (fun t => (t.dt, t.st)) (run 0xF215 ((off.setReg 2 9).setDt 3)) = some (9, 0) := by decide

theorem test_ld_st_vx :
    seen (fun t => (t.st, t.soundOn, (tickAction (tickAction t)).soundOn)) (run 0xF218 (off.setReg 2 2))
      = some (2, true, false) := by decide

/-! ## The other actions (L2.2, L2.7) -/

theorem test_key_down_completes_wait :
    seen (fun t => (t.reg 15, t.pc, t.runstate))
      (act (.keyDown 0xA) ((off.setPc 0x300).setRunstate (.waitingForKey 15))) = some (0x0A, 0x302, .running) := by decide

theorem test_held_key_completes_nothing :
    seen (fun t => (t.reg 3, t.pc, t.runstate))
      (act (.keyDown 7) ((off.setKey 7 true).setRunstate (.waitingForKey 3))) = some (0, 0x200, .waitingForKey 3) := by decide

theorem test_tick_floors_at_zero :
    (tickAction off).dt = 0 ∧ (tickAction off).st = 0 ∧
    (tickAction ((off.setDt 5).setRunstate (.waitingForKey 3))).dt = 4 := by decide

theorem test_halted_ignores_step_and_tick :
    stepAction ((halted .stackUnderflow).setDt 5) = .next ((halted .stackUnderflow).setDt 5) ∧
    tickAction ((halted .stackUnderflow).setDt 5) = (halted .stackUnderflow).setDt 5 := ⟨rfl, rfl⟩

theorem test_unknown_word_halts :
    seen (fun t => (t.runstate, t.pc)) (run 0x5121 off) = some (.halted (.unknownOpcode 0x5121 0x200), 0x200) := by decide

/-- L2.2: a fetch at 0xFFE runs, one at 0xFFF or 0x10FE does not; an odd PC fetches like any other. -/
theorem test_fetch_bounds :
    seen (fun t => (t.reg 0, t.pc)) (stepAction ((off.setPc 0xFFE).store 0xFFE [0x60, 0x05])) = some (5, 0x1000) ∧
    seen (fun t => t.runstate) (stepAction (off.setPc 0xFFF)) = some (.halted (.outOfBounds 0x1000)) ∧
    seen (fun t => t.runstate) (stepAction (off.setPc 0x10FE)) = some (.halted (.outOfBounds 0x10FE)) ∧
    seen (fun t => (t.reg 0, t.pc)) (stepAction ((off.setPc 0x201).store 0x201 [0x60, 0x07])) = some (7, 0x203) := by decide

/-- The reset action places a ROM, which wins over the font (R166), and the step then fetches it. -/
theorem test_reset_action :
    seen (fun t => (t.bytes 0 3, t.pc, t.dt)) (act (.reset [0x12] { cfgOff with loadOrigin := 0x001 }) (off.setDt 9))
      = some ([0xF0, 0x12, 0x90], 0x001, 0) := by decide

/-- The host's next action comes first: a key-down due before the step ends the wait. -/
theorem test_pending_action_first :
    seen (fun t => (t.reg 3, t.runstate, t.pending))
      (step ((off.setRunstate (.waitingForKey 3)).setPending [.keyDown 2, .tick])) = some (2, .running, [.tick]) := by decide

/-- R156, the error codes 1 to 4. -/
theorem test_status :
    (halted (.unknownOpcode 0x5121 0x200)).status = ⟨2, 0, 1, 0x5121, 0x200, 0⟩ ∧
    (halted .stackOverflow).status = ⟨2, 0, 2, 0, 0, 0⟩ ∧ (halted .stackUnderflow).status = ⟨2, 0, 3, 0, 0, 0⟩ ∧
    (halted (.outOfBounds 0xFFFF)).status = ⟨2, 0, 4, 0, 0, 0xFFFF⟩ ∧
    (off.setRunstate (.waitingForKey 0xB)).status = ⟨1, 0xB, 0, 0, 0, 0⟩ := by decide

/-! ## Witnesses: what meets the hypotheses of each obligation -/

/-- The running state that stands at the last address a fetch can use, on the word `w`. -/
def atTop (w : Nat) : State := (off.setPc 0xFFE).withFetchWord 16 w

/-- A core that waits on its FX0A at 0x200. -/
def waiting : State := (off.withFetchWord 16 0xF30A).setRunstate (.waitingForKey 3)

theorem witness_EncodeOfDecodeIsTheWord :
    decode 0xD12F = some (.drw 1 2 0xF) ∧ decode 0x00E0 = some .cls ∧ decode 0xFF65 = some (.ldRange 0xF) := by decide

/-- The table of R73 at the ends of its ranges, one list a row. -/
theorem witness_UnknownWordsAreTheTableOfR73 :
    ([0x0000, 0x00DF, 0x00E1, 0x00ED, 0x00EF, 0x0FFF] ++ [0x5001, 0x5FFF] ++ [0x8008, 0x800D, 0x800F] ++ [0x9001, 0x9FFF] ++
      [0xE000, 0xE09D, 0xE0A2] ++ [0xF000, 0xF008, 0xF066, 0xFFFF] : List Word).all (fun w => decode w = none) = true ∧
    ([0x00E0, 0x00EE, 0x1000, 0x5FF0, 0x8007, 0x800E, 0x9FF0, 0xEF9E, 0xEFA1, 0xFF07, 0xDFFF] : List Word).all
      (fun w => decode w ≠ none) = true := by decide

theorem witness_StepRunsTheDecodedInstruction :
    (atTop 0x6FFF).pending = [] ∧ (atTop 0x6FFF).runstate = .running ∧ (atTop 0x6FFF).pc.toNat + 1 ≤ 0xFFF ∧
    decode ((atTop 0x6FFF).byte (atTop 0x6FFF).pc.toNat ++ (atTop 0x6FFF).byte ((atTop 0x6FFF).pc.toNat + 1))
      = some (.ldVxKk 0xF 0xFF) := by decide

/-- PC at 0xFFF and at 0x1000 for the first clause, at 0xFFE on a word that is none and one that is an instruction for the
second. -/
theorem witness_RunningStepFetchesThenDecodes :
    (off.setPc 0xFFF).runstate = .running ∧ 0xFFF < (off.setPc 0xFFF).pc.toNat + 1 ∧ 0xFFF < (off.setPc 0x1000).pc.toNat + 1 ∧
    (atTop 0x5121).runstate = .running ∧ (atTop 0x5121).pc.toNat + 1 ≤ 0xFFF ∧
    decode ((atTop 0x5121).byte (atTop 0x5121).pc.toNat ++ (atTop 0x5121).byte ((atTop 0x5121).pc.toNat + 1)) = none ∧
    decode ((atTop 0x00E0).byte (atTop 0x00E0).pc.toNat ++ (atTop 0x00E0).byte ((atTop 0x00E0).pc.toNat + 1)) = some .cls := by
  decide

theorem witness_StepOutsideRunningChangesNothing :
    (halted .stackOverflow).runstate = .halted .stackOverflow ∧ waiting.runstate = .waitingForKey 3 ∧
    notReset (.keyDown 7) = true ∧ act (.keyDown 7) waiting = .next (completeWait 3 7 (waiting.setKey 7 true)) ∧
    (completeWait 3 7 (waiting.setKey 7 true)).runstate ≠ waiting.runstate := ⟨rfl, rfl, rfl, rfl, by decide⟩

/-- A ROM that does not fit is refused (L1.11: 3585 bytes above 0x200). -/
theorem oversized_refused (rom : List Byte) (h : rom.length = 3585) :
    step (off.setPending [.reset rom cfgOff]) = .refused .invalidRomSize := by
  have hf : romFits rom cfgOff = false := by
    rw [← Bool.not_eq_true, romFits_iff, h]
    decide
  show resetAction rom cfgOff _ = _
  rw [resetAction, hf]
  rfl

theorem witness_StepPerformsTheHostsNextAction :
    off.pending = [] ∧ (off.setPending [.tick, .step]).pending = [.tick, .step] ∧
    (∃ t, step (off.setPending [.tick, .step]) = .next t) ∧
    ∃ rom : List Byte, rom.length > 4096 - cfgOff.loadOrigin.toNat ∧
      step (off.setPending [.reset rom cfgOff]) = .refused .invalidRomSize :=
  ⟨rfl, rfl, ⟨_, rfl⟩, List.replicate 3585 0, by rw [List.length_replicate]; decide,
    oversized_refused _ List.length_replicate⟩

/-- Each error an instruction raises, at the first value that raises it and the last that does not. -/
theorem witness_ExecHaltsExactlyOnABreach :
    breach (.call 0x300) (off.setStack (stackOf 16)) = some .stackOverflow ∧
    breach (.call 0x300) (off.setStack (stackOf 15)) = none ∧ breach .ret off = some .stackUnderflow ∧
    breach .ret (off.setStack (stackOf 1)) = none ∧ breach (.ldBVx 0) (off.setI 0xFFE) = some (.outOfBounds 0x1000) ∧
    breach (.ldBVx 0) (off.setI 0xFFD) = none ∧ breach (.stRange 1) (off.setI 0xFFF) = some (.outOfBounds 0x1000) ∧
    breach (.ldRange 0) (off.setI 0xFFF) = none ∧ breach (.ldRange 0) (off.setI 0x1001) = some (.outOfBounds 0x1001) ∧
    breach (.drw 0 0 2) (off.setI 0xFFF) = some (.outOfBounds 0x1000) ∧ breach (.drw 0 0 1) (off.setI 0xFFF) = none ∧
    breach (.drw 0 0 0) (off.setI 0xFFFF) = none := by decide

theorem off_alive : off.alive := by
  intro e h
  cases h

theorem witness_HaltedIsTerminal :
    (halted .stackUnderflow).runstate = .halted .stackUnderflow ∧
    ([.step, .tick, .keyDown 3, .keyUp 3] : List Action).all notReset = true := by decide

theorem witness_ReturnPopsTheTopIntoPc :
    (off.setStack [0x202, 0x304]).stack = [0x202] ++ [0x304] ∧ (off.setStack [0x202]).stack = [] ++ [0x202] ∧
    off.stack = [] := by decide

theorem witness_JumpSetsPc :
    off.runstate = .running ∧ (0xFFF : Addr) = 0xFFF ∧ (0x200 : Addr).toNat = off.pc.toNat := by decide

theorem witness_CallPushesTheNextAddress :
    off.stack.length ≠ 16 ∧ (off.setStack (stackOf 15)).stack.length ≠ 16 ∧ (off.setStack (stackOf 16)).stack.length = 16 := by
  decide

theorem witness_KeySkipsTestTheLowNibblesKey :
    (0xF : Key).val = ((off.setReg 1 0xFF).reg 1).toNat % 16 ∧ (0x0 : Key).val = ((off.setReg 1 0x10).reg 1).toNat % 16 := by
  decide

theorem witness_JumpWithOffsetAddsTheChosenRegister :
    (0xF : Reg).val = (0xFFF : Addr).toNat / 256 ∧ (0x0 : Reg).val = (0x0FF : Addr).toNat / 256 ∧
    off.cfg.jumpOffsetVx = false ∧ on.cfg.jumpOffsetVx = true := by decide

theorem witness_AddSetsCarry : (0 : Reg) ≠ vf ∧ (0xE : Reg) ≠ vf ∧
    ((off.setReg 0 0xFF).reg 0).toNat + ((off.setReg 1 1).reg 1).toNat > 255 := by decide

theorem witness_SubtractSetsNoBorrow : (0 : Reg) ≠ vf ∧ (off.reg 0).toNat ≥ (off.reg 1).toNat := by decide

theorem witness_ReverseSubtractSetsNoBorrow : (0xE : Reg) ≠ vf ∧ (off.reg 1).toNat ≥ (off.reg 0).toNat := by decide

theorem witness_ShiftsMoveTheBitOutIntoVf :
    (0x81 : Byte) = (if (on.setReg 1 0x81).cfg.shiftUsesVy = true then (on.setReg 1 0x81).reg 1 else (on.setReg 1 0x81).reg 0) ∧
    (0x81 : Byte) = (if (off.setReg 0 0x81).cfg.shiftUsesVy = true then (off.setReg 0 0x81).reg 1
      else (off.setReg 0 0x81).reg 0) ∧ (0 : Reg) ≠ vf := by decide

theorem witness_RegisterArithmeticWrapsModulo256 : (0 : Reg) ≠ vf ∧ (0xE : Reg) ≠ vf := by decide

theorem witness_RandomMasksTheDraw : ∃ r : Byte, r = Config.rnd8 off.draws := ⟨_, rfl⟩

theorem witness_BcdStoresThreeDigits :
    (off.setI 0xFFD).i.toNat + 2 ≤ 0xFFF ∧ (off.setI 0xFFE).i.toNat + 2 > 0xFFF ∧ (off.setI 0xFFFF).i.toNat + 2 > 0xFFF := by
  decide

theorem witness_StoreRangeWritesTheRegisters :
    (off.setI 0xFFF).i.toNat + (0 : Reg).val ≤ 0xFFF ∧ (off.setI 0xFF0).i.toNat + (15 : Reg).val ≤ 0xFFF ∧
    (off.setI 0xFFF).i.toNat + (1 : Reg).val > 0xFFF ∧ (off.setI 0x1000).i.toNat + (0 : Reg).val > 0xFFF := by decide

theorem witness_LoadRangeReadsTheRegisters :
    (off.setI 0xFFF).i.toNat + (0 : Reg).val ≤ 0xFFF ∧ (off.setI 0xFF0).i.toNat + (15 : Reg).val ≤ 0xFFF ∧
    (off.setI 0xFF1).i.toNat + (15 : Reg).val > 0xFFF ∧ (off.setI 0xFFFF).i.toNat + (15 : Reg).val > 0xFFF := by decide

/-- The font's digit 0 at (0, 0): its bit 7 of row 0 covers the pixel (0, 0); a sprite of no rows covers nothing. -/
theorem witness_DrawFlipsExactlyTheCoveredPixels :
    (off.i.toNat + (5 : Rows).val ≤ 0x1000 ∧ spriteCovers off 0 1 5 0 0) ∧
    ((off.setI 0xFFF).i.toNat + (1 : Rows).val ≤ 0x1000) ∧ ¬ spriteCovers (off.setI 0xFFFF) 0 1 0 0 0 := by
  refine ⟨⟨by decide, 0, 0, by decide, by decide, by decide, by decide⟩, by decide, ?_⟩
  rintro ⟨r, c, hr, -⟩
  exact absurd hr (Nat.not_lt_zero r)

/-- The pixel (0, 0) is set and covered. -/
theorem witness_CollisionFlagMeansAPixelWasCleared :
    (off.setDisp (off.disp.setPixel 0 0 true)).i.toNat + (1 : Rows).val ≤ 0x1000 ∧
    spriteCovers (off.setDisp (off.disp.setPixel 0 0 true)) 0 1 1 0 0 ∧
    (off.setDisp (off.disp.setPixel 0 0 true)).pixel 0 0 = true := by
  refine ⟨by decide, ⟨0, 0, by decide, by decide, by decide, by decide⟩, by decide⟩

theorem witness_DrawHeightZeroAndOutOfRange :
    ((2 : Rows).val > 0 ∧ (off.setI 0xFFF).i.toNat + (2 : Rows).val - 1 > 0xFFF) ∧
    ((1 : Rows).val > 0 ∧ (off.setI 0x1000).i.toNat + (1 : Rows).val - 1 > 0xFFF) := by decide

theorem witness_SetTimersFromRegister : off.alive ∧ (off.setReg 2 0xFF).alive := ⟨off_alive, off_alive⟩

theorem witness_WaitForKeyHoldsUntilAKeyDownEvent :
    (off.setKey 7 true).key 7 = true ∧ (off.setKey 7 true).key 0xF = false := by decide

theorem witness_KeyActionsSetKeyStates :
    (∀ x, off.runstate ≠ .waitingForKey x) ∧ (∀ x, (halted .stackOverflow).runstate ≠ .waitingForKey x) := by
  refine ⟨fun x h => ?_, fun x h => ?_⟩ <;> cases h

theorem witness_TickDecrementsBothTimers : off.alive ∧ waiting.alive ∧ ¬ (halted .stackOverflow).alive := by
  refine ⟨off_alive, fun e h => ?_, fun h => h .stackOverflow rfl⟩
  cases h

theorem witness_OnlyTicksCountWhileWaiting :
    waiting.runstate = .waitingForKey 3 ∧ ([.step, .tick, .step, .tick] : List Action).all isClock = true := by decide

/-- Running uses no field of the status, WaitingForKey none of the error fields, StackOverflow neither word nor address. -/
theorem witness_OutputsReadTheState :
    (∀ x, off.runstate ≠ .waitingForKey x) ∧ (∀ w pc, waiting.runstate ≠ .halted (.unknownOpcode w pc)) ∧
    (∀ w pc, (halted .stackOverflow).runstate ≠ .halted (.unknownOpcode w pc)) ∧
    (∀ a, (halted .stackOverflow).runstate ≠ .halted (.outOfBounds a)) ∧
    (∀ a, (halted (.unknownOpcode 0x5121 0x200)).runstate ≠ .halted (.outOfBounds a)) := by
  refine ⟨fun _ h => ?_, fun _ _ h => ?_, fun _ _ h => ?_, fun _ h => ?_, fun _ h => ?_⟩ <;> cases h

/-- 3584 bytes fit above 0x200 and 3585 do not (L1.11). -/
theorem witness_ResetPlacesTheRomVerbatim :
    (List.replicate 3584 (0 : Byte)).length ≤ 4096 - cfgOff.loadOrigin.toNat ∧
    (List.replicate 3585 (0 : Byte)).length > 4096 - cfgOff.loadOrigin.toNat := by
  rw [List.length_replicate, List.length_replicate]
  decide

/-- Below the ROM inside the font (0x04F), below the ROM outside it (0x050), and past the ROM. -/
theorem witness_ResetBuildsAFreshState :
    ([0x12, 0x00] : List Byte).length ≤ 4096 - cfgOff.loadOrigin.toNat ∧
    0x202 ≤ 0xFFF ∧ (0x04F < cfgOff.loadOrigin.toNat ∧ 0x04F = cfgOff.fontBase.toNat + (79 : Fin 80).val) ∧
    (0x050 < cfgOff.loadOrigin.toNat ∧ cfgOff.fontBase.toNat + 80 ≤ 0x050) ∧
    cfgOff.loadOrigin.toNat + ([0x12, 0x00] : List Byte).length ≤ 0x202 := by decide

theorem witness_ResetStateHasTheValuesOfR45 : 0x50 ≤ 0x50 ∧ 0x50 ≤ 0xFFF := by decide

theorem off_inv : off.Inv := ⟨by decide, by decide, (fun _ h => nomatch h), by decide, trivial⟩

/-- A running core, a waiting one and a halted one that meet the invariant and step on. -/
theorem witness_EveryStepKeepsTheInvariant :
    (off.Inv ∧ ∃ t, step off = .next t) ∧ (waiting.Inv ∧ step waiting = .next waiting) ∧
    ((haltedWith .stackUnderflow off).Inv ∧ step (haltedWith .stackUnderflow off) = .next (haltedWith .stackUnderflow off)) :=
  ⟨⟨off_inv, _, rfl⟩,
   ⟨⟨by decide, by decide, (fun _ h => nomatch h), by decide, ⟨by decide, by decide⟩⟩, rfl⟩,
   ⟨⟨off_inv.memory, off_inv.depth, off_inv.returns, off_inv.pcBound, rfl⟩, rfl⟩⟩

/-- Memory with a listed byte, and a step that stores. -/
theorem witness_EveryStepKeepsMemoryCanonical :
    Memory.wf ((off.setI 0x300).withFetchWord 16 0xF033).cfg ((off.setI 0x300).withFetchWord 16 0xF033).mem ∧
    seen (fun t => t.pc) (step ((off.setI 0x300).withFetchWord 16 0xF033)) = some 0x202 := by decide

theorem witness_ConfigurationChangesOnlyByReset :
    (notReset .tick = true ∧ act .tick off = .next (tickAction off)) ∧
    act (.reset [0x12] cfgOn) off = .next (freshState [0x12] cfgOn off) := ⟨⟨rfl, rfl⟩, rfl⟩

/-- The three transitions of R35. -/
theorem witness_RunStateFollowsItsTransitions :
    seen (fun t => t.runstate) (act .step (off.withFetchWord 16 0xF30A)) = some (.waitingForKey 3) ∧
    seen (fun t => t.runstate) (act .step (off.withFetchWord 16 0x00EE)) = some (.halted .stackUnderflow) ∧
    seen (fun t => t.runstate) (act (.keyDown 7) waiting) = some .running ∧ waiting.key 7 = false := by decide

theorem witness_RegistersChangeOnlyWhereTheTableSays :
    exec (.ldVxKk 3 7) off = .next ((off.setReg 3 7).setPc 0x202) ∧ (4 : Reg) ∉ writesRegs (.ldVxKk 3 7) := ⟨rfl, by decide⟩

/-- An instruction that overwrites the changed register, one that does not, and one that reads no register. -/
theorem witness_ResultsDependOnlyOnTheRegistersRead :
    (3 : Reg) ∉ readsRegs off.cfg (.ldVxKk 3 7) ∧ (4 : Reg) ∉ readsRegs off.cfg (.addVxVy 3 5) ∧
    vf ∉ readsRegs off.cfg (.drw 0 1 5) ∧ (0 : Reg) ∉ readsRegs off.cfg (.shrVxVy 1 0) ∧
    (1 : Reg) ∉ readsRegs on.cfg (.shrVxVy 1 0) := by decide

/-- FX33 and FX55 at the ends of their ranges, an instruction that stores nothing, and a step action that changes the last
byte of an FX33. -/
theorem witness_MemoryChangesOnlyInTheStoredBytes :
    (seen (fun t => t.pc) (exec (.ldBVx 0) (off.setI 0x300)) = some 0x202 ∧
      0x2FF < (storedBytes (.ldBVx 0) (off.setI 0x300)).1 ∧
      (storedBytes (.ldBVx 0) (off.setI 0x300)).1 + (storedBytes (.ldBVx 0) (off.setI 0x300)).2 ≤ 0x303) ∧
    (storedBytes (.stRange 2) (off.setI 0x300)).1 + (storedBytes (.stRange 2) (off.setI 0x300)).2 ≤ 0x303 ∧
    (storedBytes .cls off).1 + (storedBytes .cls off).2 ≤ 0 ∧
    (notReset .step = true ∧
      seen (fun t => t.byte 0x302) (act .step ((off.setI 0x300).setReg 0 7 |>.withFetchWord 16 0xF033)) = some 7 ∧
      ((off.setI 0x300).setReg 0 7 |>.withFetchWord 16 0xF033).byte 0x302 ≠ 7) := by decide

theorem witness_OnlyCallAndReturnTouchTheStack :
    seen (fun t => t.stack) (exec (.call 0x300) off) = some [0x202] ∧ off.stack ≠ [0x202] ∧
    seen (fun t => t.stack) (exec .ret (off.setStack [0x202])) = some [] := by decide

theorem witness_SpecialRegistersChangeOnlyByTheirInstructions :
    seen (fun t => t.i) (exec (.ldI 0x123) off) = some 0x123 ∧ off.i ≠ 0x123 ∧
    seen (fun t => t.dt) (exec (.ldDtVx 0) (off.setReg 0 9)) = some 9 ∧ off.dt ≠ 9 ∧
    seen (fun t => t.st) (exec (.ldStVx 0) (off.setReg 0 9)) = some 9 ∧ off.st ≠ 9 ∧
    seen (fun t => t.pixel 0 0) (exec (.drw 0 1 5) off) = some true ∧ off.pixel 0 0 = false := by decide

/-- A taken skip, a transfer that overflows, the wait, and a sequential instruction that halts. -/
theorem witness_PcAfterAnInstructionHasOneOfFourKinds :
    seen (fun t => t.pc) (exec (.seVxKk 0 0) off) = some 0x204 ∧
    exec (.call 0x300) (off.setStack (stackOf 16)) = .next (haltedWith .stackOverflow (off.setStack (stackOf 16))) ∧
    seen (fun t => t.pc) (exec (.ldVxK 3) off) = some 0x200 ∧
    exec (.ldBVx 0) (off.setI 0xFFE) = .next (haltedWith (.outOfBounds 0x1000) (off.setI 0xFFE)) :=
  ⟨by decide, rfl, by decide, rfl⟩

end Sys2Proof.Tests
end

section
/-! Proofs about the actions of the host (spec/00_scope.md R2, R7): no instruction touches what belongs to the host, only
a reset sets the configuration, and only a reset with an oversized ROM is refused. -/

namespace Sys2Proof.Machine

/-- What belongs to the host and no instruction changes: the keypad (R31), the configuration (R7) and the actions the host
fires next (log entry 4). -/
structure KeepsHostParts (s t : State) : Prop where
  keys : t.keys = s.keys
  cfg : t.cfg = s.cfg
  pending : t.pending = s.pending

/-! ## Every instruction and every step action answers a next state -/

/-- The instructions with a check of their own answer a halted state or go on, by their case lemma; every other answers one
next state by definition. -/
theorem exec_next (i : Instr) (s : State) : ∃ t, exec i s = .next t ∧ KeepsHostParts s t := by
  cases i with
  | ret =>
    obtain ⟨-, h⟩ | ⟨below, top, -, h⟩ := exec_ret_cases s <;> exact ⟨_, h, rfl, rfl, rfl⟩
  | call nnn =>
    obtain ⟨-, h⟩ | ⟨-, h⟩ := exec_call_cases nnn s <;> exact ⟨_, h, rfl, rfl, rfl⟩
  | drw x y n =>
    obtain ⟨-, -, h⟩ | ⟨-, h⟩ := exec_drw_cases x y n s <;> exact ⟨_, h, rfl, rfl, rfl⟩
  | ldBVx x =>
    obtain ⟨-, h⟩ | ⟨-, h⟩ := exec_ldBVx_cases x s <;> exact ⟨_, h, rfl, rfl, rfl⟩
  | stRange x =>
    obtain ⟨-, h⟩ | ⟨-, h⟩ := exec_stRange_cases x s <;> exact ⟨_, h, rfl, rfl, rfl⟩
  | ldRange x =>
    obtain ⟨-, h⟩ | ⟨-, h⟩ := exec_ldRange_cases x s <;> exact ⟨_, h, rfl, rfl, rfl⟩
  | _ => exact ⟨_, rfl, rfl, rfl, rfl⟩

theorem execWord_next (w : Word) (s : State) : ∃ t, execWord w s = .next t ∧ KeepsHostParts s t := by
  obtain ⟨-, h⟩ | ⟨i, -, h⟩ := execWord_cases w s
  · exact ⟨_, h, rfl, rfl, rfl⟩
  · exact h ▸ exec_next i s

theorem stepAction_next (s : State) : ∃ t, stepAction s = .next t ∧ KeepsHostParts s t := by
  obtain ⟨-, h⟩ | ⟨-, -, h⟩ | ⟨-, -, h⟩ := stepAction_cases s
  · exact ⟨s, h, rfl, rfl, rfl⟩
  · exact ⟨_, h, rfl, rfl, rfl⟩
  · exact h ▸ execWord_next (s.word s.pc.toNat) s

/-! ## The other actions -/

@[simp] theorem tickAction_cfg (s : State) : (tickAction s).cfg = s.cfg := by
  unfold tickAction
  split <;> rfl

@[simp] theorem keyUpAction_cfg (k : Key) (s : State) : (keyUpAction k s).cfg = s.cfg := rfl

@[simp] theorem keyDownAction_cfg (k : Key) (s : State) : (keyDownAction k s).cfg = s.cfg := by
  obtain ⟨x, -, -, h⟩ | h := keyDownAction_cases k s <;> rw [h] <;> rfl

@[simp] theorem freshState_cfg (rom : List Byte) (cfg : Config) (s : State) : (freshState rom cfg s).cfg = cfg := rfl

/-- An action other than a reset answers a next state and leaves the configuration as it was. -/
theorem act_next_of_notReset {a : Action} (ha : notReset a = true) (s : State) :
    ∃ t, act a s = .next t ∧ t.cfg = s.cfg := by
  cases a with
  | step =>
    obtain ⟨t, ht, hkeeps⟩ := stepAction_next s
    exact ⟨t, ht, hkeeps.cfg⟩
  | tick => exact ⟨_, rfl, tickAction_cfg s⟩
  | keyDown k => exact ⟨_, rfl, keyDownAction_cfg k s⟩
  | keyUp k => exact ⟨_, rfl, keyUpAction_cfg k s⟩
  | reset rom cfg => simp [notReset] at ha

/-- A reset that answers a next state built the fresh state (R163). -/
theorem act_reset_eq_next {rom : List Byte} {cfg : Config} {s t : State} (h : act (.reset rom cfg) s = .next t) :
    t = freshState rom cfg s := by
  change resetAction rom cfg s = .next t at h
  obtain ⟨-, hfresh⟩ | ⟨-, hrefused⟩ := resetAction_cases rom cfg s
  · simpa [hfresh] using h.symm
  · simp [hrefused] at h

/-- An action answers a next state, or is a reset whose ROM image is too large, which is refused (R165). -/
theorem act_next_or_refused (a : Action) (s : State) :
    (∃ t, act a s = .next t) ∨
    (∃ rom cfg, a = .reset rom cfg ∧ rom.length > 4096 - cfg.loadOrigin.toNat ∧
      act a s = .refused .invalidRomSize) := by
  by_cases ha : notReset a = true
  · obtain ⟨t, ht, -⟩ := act_next_of_notReset ha s
    exact .inl ⟨t, ht⟩
  · cases a with
    | reset rom cfg =>
      obtain ⟨-, h⟩ | ⟨hlarge, h⟩ := resetAction_cases rom cfg s
      · exact .inl ⟨_, h⟩
      · exact .inr ⟨rom, cfg, rfl, hlarge, h⟩
    | _ => exact absurd rfl ha

/-! ## The obligations -/

/-- Settles O10, by cases on the actions due: a step action always answers, another action by `act_next_or_refused`. -/
theorem stepPerformsTheHostsNextAction : Obligations.StepPerformsTheHostsNextAction := by
  unfold Obligations.StepPerformsTheHostsNextAction
  intro s
  refine ⟨step_nil s, step_cons s, ?_⟩
  cases hp : s.pending with
  | nil =>
    obtain ⟨t, ht, -⟩ := stepAction_next s
    exact .inl ⟨t, (step_nil s hp).trans ht⟩
  | cons a rest =>
    rw [step_cons s a rest hp]
    obtain hnext | ⟨rom, cfg, rfl, hlarge, hrefused⟩ := act_next_or_refused a (s.setPending rest)
    · exact .inl hnext
    · exact .inr ⟨rom, cfg, rest, rfl, hlarge, hrefused⟩

/-- Settles O51: an action other than a reset keeps the configuration, a reset builds the fresh state of its own. -/
theorem configurationChangesOnlyByReset : Obligations.ConfigurationChangesOnlyByReset := by
  unfold Obligations.ConfigurationChangesOnlyByReset
  intro a s t hact
  constructor
  · intro ha
    obtain ⟨u, hu, hcfg⟩ := act_next_of_notReset ha s
    obtain rfl : u = t := by simpa [hu] using hact
    exact hcfg
  · rintro rom cfg rfl
    rw [act_reset_eq_next hact, freshState_cfg]

end Sys2Proof.Machine
end

section
/-! What one instruction does, said once (spec/40_step.md R91, R97; spec/60_exceptions.md R142): it halts with its breach and
nothing else changed, or it writes its data and moves PC. The frames of the single parts of the state follow. -/

namespace Sys2Proof.Machine

/-! ## The effect of an instruction as data and PC -/

/-- What an instruction without a breach writes, PC left alone. -/
def dataAfter (i : Instr) (s : State) : State :=
  match i with
  | .cls => s.setDisp Display.clear
  | .ret => s.setStack s.stack.dropLast
  | .call _ => s.setStack (s.stack ++ [s.pc + 2])
  | .ldVxKk x kk => s.setReg x kk
  | .addVxKk x kk => s.setReg x (s.reg x + kk)
  | .ldVxVy x y => s.setReg x (s.reg y)
  | .orVxVy x y => s.setReg x (s.reg x ||| s.reg y)
  | .andVxVy x y => s.setReg x (s.reg x &&& s.reg y)
  | .xorVxVy x y => s.setReg x (s.reg x ^^^ s.reg y)
  | .addVxVy x y => s.setRegFlag x (s.reg x + s.reg y) (flagByte (carryOut (s.reg x) (s.reg y)))
  | .subVxVy x y => s.setRegFlag x (s.reg x - s.reg y) (flagByte (noBorrow (s.reg x) (s.reg y)))
  | .subnVxVy x y => s.setRegFlag x (s.reg y - s.reg x) (flagByte (noBorrow (s.reg y) (s.reg x)))
  | .shrVxVy x y => s.setRegFlag x (s.shiftSource x y >>> 1) (flagByte (shiftedOutRight (s.shiftSource x y)))
  | .shlVxVy x y => s.setRegFlag x (s.shiftSource x y <<< 1) (flagByte (shiftedOutLeft (s.shiftSource x y)))
  | .rnd x kk => (s.setReg x (Config.rnd8 s.draws &&& kk)).countDraw
  | .ldI nnn => s.setI (zext16 nnn)
  | .addIVx x => s.setI (s.i + (s.reg x).setWidth 16)
  | .ldFVx x => s.setI (glyphAddress s.cfg (s.reg x))
  | .drw x y n => s.commitDraw (s.drawSprite x y (s.bytes s.i.toNat n.val))
  | .ldVxDt x => s.setReg x s.dt
  | .ldVxK x => s.setRunstate (.waitingForKey x)
  | .ldDtVx x => s.setDt (s.reg x)
  | .ldStVx x => s.setSt (s.reg x)
  | .ldBVx x => s.store s.i.toNat (bcdDigits (s.reg x))
  | .stRange x => s.store s.i.toNat (s.regsTo x)
  | .ldRange x => s.loadRegs (s.bytes s.i.toNat (x.val + 1))
  | .jp _ | .jpOff _ | .seVxKk _ _ | .sneVxKk _ _ | .seVxVy _ _ | .sneVxVy _ _ | .skp _ | .sknp _ => s

/-- PC after an instruction without a breach: the kinds of R91. -/
def pcAfter (i : Instr) (s : State) : Word :=
  match i with
  | .ret => s.stack.getLastD 0
  | .jp nnn | .call nnn => zext16 nnn
  | .jpOff nnn => s.offsetTarget nnn
  | .seVxKk x kk => (s.skipIf (s.reg x == kk)).pc
  | .sneVxKk x kk => (s.skipIf (s.reg x != kk)).pc
  | .seVxVy x y => (s.skipIf (s.reg x == s.reg y)).pc
  | .sneVxVy x y => (s.skipIf (s.reg x != s.reg y)).pc
  | .skp x => (s.skipIf (s.key (keyIndex (s.reg x)))).pc
  | .sknp x => (s.skipIf (!s.key (keyIndex (s.reg x)))).pc
  | .ldVxK _ => s.pc
  | _ => s.pc + 2

/-- A guarded access answers the error of its breach, or goes on. -/
theorem withRange_of_breach {a n : Nat} {s : State} {e : ErrorRecord} (k : Result) (h : rangeBreach a n = some e) :
    withRange a n s k = .next (haltedWith e s) := by
  simp [withRange_eq, h]

theorem withRange_of_no_breach {a n : Nat} {s : State} (k : Result) (h : rangeBreach a n = none) :
    withRange a n s k = k := by
  simp [withRange_eq, h]

/-- An instruction halts with the error of its breach (R97, R142). -/
theorem exec_of_breach {i : Instr} {s : State} {e : ErrorRecord} (h : breach i s = some e) :
    exec i s = .next (haltedWith e s) := by
  cases i with
  | ret =>
    obtain ⟨hs, hexec⟩ | ⟨below, top, hs, -⟩ := exec_ret_cases s
    · obtain rfl : ErrorRecord.stackUnderflow = e := by simpa [breach, hs] using h
      exact hexec
    · simp [breach, hs] at h
  | call nnn =>
    obtain ⟨hs, hexec⟩ | ⟨hs, -⟩ := exec_call_cases nnn s
    · obtain rfl : ErrorRecord.stackOverflow = e := by simpa [breach, hs] using h
      exact hexec
    · simp [breach, hs] at h
  | drw x y n =>
    by_cases hn : n.val = 0
    · simp [breach, hn] at h
    · simp only [breach, hn, if_false] at h
      simp [exec, execDrw, hn, withRange_of_breach _ h]
  | ldBVx x | stRange x | ldRange x => exact withRange_of_breach _ h
  | _ => cases h

/-- An instruction without a breach writes its data and moves PC. -/
theorem exec_of_no_breach {i : Instr} {s : State} (h : breach i s = none) :
    exec i s = .next ((dataAfter i s).setPc (pcAfter i s)) := by
  cases i with
  | ret =>
    obtain ⟨hs, -⟩ | ⟨below, top, hs, hexec⟩ := exec_ret_cases s
    · simp [breach, hs] at h
    · simp [hexec, dataAfter, pcAfter, hs]
  | call nnn =>
    obtain ⟨hs, -⟩ | ⟨-, hexec⟩ := exec_call_cases nnn s
    · simp [breach, hs] at h
    · exact hexec
  | drw x y n =>
    obtain ⟨hn, hout, -⟩ | ⟨-, hexec⟩ := exec_drw_cases x y n s
    · simp only [breach, Nat.ne_of_gt hn, if_false, rangeBreach_none] at h
      omega
    · exact hexec
  | ldBVx x | stRange x | ldRange x => exact withRange_of_no_breach _ h
  | _ => rfl

/-- The two things an instruction can do. -/
theorem exec_cases {i : Instr} {s t : State} (h : exec i s = .next t) :
    (∃ e, breach i s = some e ∧ t = haltedWith e s) ∨
    (breach i s = none ∧ t = (dataAfter i s).setPc (pcAfter i s)) := by
  cases hb : breach i s with
  | some e =>
    rw [exec_of_breach hb] at h
    exact .inl ⟨e, rfl, by simpa using h.symm⟩
  | none =>
    rw [exec_of_no_breach hb] at h
    exact .inr ⟨rfl, by simpa using h.symm⟩

/-! ## The frame of each part of the state -/

/-- Only the listed registers are written (R18). -/
theorem dataAfter_reg {i : Instr} {r : Reg} (hr : r ∉ writesRegs i) (s : State) : (dataAfter i s).reg r = s.reg r := by
  cases i with
  | ldVxKk x _ | addVxKk x _ | ldVxVy x _ | orVxVy x _ | andVxVy x _ | xorVxVy x _ | ldVxDt x | rnd x _ =>
    have hx : r ≠ x := by simpa [writesRegs] using hr
    simp [dataAfter, State.reg_setReg, hx]
  | addVxVy x _ | subVxVy x _ | subnVxVy x _ | shrVxVy x _ | shlVxVy x _ =>
    have hx : r ≠ x ∧ r ≠ vf := by simpa [writesRegs] using hr
    simp [dataAfter, State.reg_setRegFlag, hx]
  | drw x y n =>
    have hx : r ≠ vf := by simpa [writesRegs] using hr
    simp [dataAfter, State.commitDraw, State.reg_setReg, hx]
  | ldRange x =>
    have hx : ¬ r.val ≤ x.val := by simpa [writesRegs, mem_regsUpTo] using hr
    simp [dataAfter, State.reg_loadRegs, hx]
  | _ => rfl

/-- The stack is kept, pushed by CALL, or popped by RET (R28). -/
theorem dataAfter_stack (i : Instr) (s : State) :
    (dataAfter i s).stack = s.stack ∨
    (∃ nnn, i = .call nnn ∧ (dataAfter i s).stack = s.stack ++ [s.pc + 2]) ∨
    (i = .ret ∧ (dataAfter i s).stack = s.stack.dropLast) := by
  cases i with
  | call nnn => exact .inr (.inl ⟨nnn, rfl, rfl⟩)
  | ret => exact .inr (.inr ⟨rfl, rfl⟩)
  | _ => exact .inl rfl

/-- I is kept but by ANNN, FX1E and FX29 (R22). -/
theorem dataAfter_i (i : Instr) (s : State) :
    (dataAfter i s).i = s.i ∨ (∃ nnn, i = .ldI nnn) ∨ (∃ x, i = .addIVx x) ∨ ∃ x, i = .ldFVx x := by
  cases i with
  | ldI nnn => exact .inr (.inl ⟨nnn, rfl⟩)
  | addIVx x => exact .inr (.inr (.inl ⟨x, rfl⟩))
  | ldFVx x => exact .inr (.inr (.inr ⟨x, rfl⟩))
  | _ => exact .inl rfl

/-- The display is kept but by CLS and DRW (R30). -/
theorem dataAfter_disp (i : Instr) (s : State) :
    (dataAfter i s).disp = s.disp ∨ i = .cls ∨ ∃ x y n, i = .drw x y n := by
  cases i with
  | cls => exact .inr (.inl rfl)
  | drw x y n => exact .inr (.inr ⟨x, y, n, rfl⟩)
  | _ => exact .inl rfl

/-- DT is kept but by FX15 (R24). -/
theorem dataAfter_dt (i : Instr) (s : State) : (dataAfter i s).dt = s.dt ∨ ∃ x, i = .ldDtVx x := by
  cases i with
  | ldDtVx x => exact .inr ⟨x, rfl⟩
  | _ => exact .inl rfl

/-- ST is kept but by FX18 (R25). -/
theorem dataAfter_st (i : Instr) (s : State) : (dataAfter i s).st = s.st ∨ ∃ x, i = .ldStVx x := by
  cases i with
  | ldStVx x => exact .inr ⟨x, rfl⟩
  | _ => exact .inl rfl

/-- The run state is kept but by FX0A, which changes nothing else (R136). -/
theorem dataAfter_runstate (i : Instr) (s : State) :
    (dataAfter i s).runstate = s.runstate ∨ ∃ x, i = .ldVxK x ∧ dataAfter i s = s.setRunstate (.waitingForKey x) := by
  cases i with
  | ldVxK x => exact .inr ⟨x, rfl, rfl⟩
  | _ => exact .inl rfl

/-- Memory is kept, or FX33 or FX55 stores bytes that all lie inside it (R46, R56). -/
theorem dataAfter_mem {i : Instr} {s : State} (h : breach i s = none) :
    (dataAfter i s).mem = s.mem ∨
    ∃ a bs, a + bs.length ≤ 0x1000 ∧ (dataAfter i s).mem = Memory.writeList s.cfg s.mem a bs := by
  cases i with
  | ldBVx x => exact .inr ⟨_, bcdDigits (s.reg x), rangeBreach_none.mp h, rfl⟩
  | stRange x =>
    refine .inr ⟨_, s.regsTo x, ?_, rfl⟩
    rw [State.regsTo_length]
    exact rangeBreach_none.mp h
  | _ => exact .inl rfl

@[simp] theorem dataAfter_cfg (i : Instr) (s : State) : (dataAfter i s).cfg = s.cfg := by
  cases i <;> rfl

/-! ## The obligations -/

/-- Settles O53: a breach leaves every register, and without one `dataAfter_reg` says which are written. -/
theorem registersChangeOnlyWhereTheTableSays : Obligations.RegistersChangeOnlyWhereTheTableSays := by
  unfold Obligations.RegistersChangeOnlyWhereTheTableSays
  intro i s t r hexec hr
  obtain ⟨e, -, rfl⟩ | ⟨-, rfl⟩ := exec_cases hexec
  · rfl
  · exact dataAfter_reg hr s

/-- Settles O56, by the three cases of `dataAfter_stack`; RET without a breach has a top to drop. -/
theorem onlyCallAndReturnTouchTheStack : Obligations.OnlyCallAndReturnTouchTheStack := by
  unfold Obligations.OnlyCallAndReturnTouchTheStack
  intro i s t hexec hne
  obtain ⟨e, -, rfl⟩ | ⟨hb, rfl⟩ := exec_cases hexec
  · exact absurd rfl hne
  · obtain hkeep | hcall | ⟨rfl, hpop⟩ := dataAfter_stack i s
    · exact absurd hkeep hne
    · exact .inl hcall
    · obtain hnil | ⟨below, top, hs⟩ := stack_cases s.stack
      · simp [breach, hnil] at hb
      · exact .inr ⟨rfl, top, by simp [hpop, hs]⟩

/-- Settles O57: the frame of each part, and `exec_next` for what belongs to the host. -/
theorem specialRegistersChangeOnlyByTheirInstructions :
    Obligations.SpecialRegistersChangeOnlyByTheirInstructions := by
  unfold Obligations.SpecialRegistersChangeOnlyByTheirInstructions
  intro i s t hexec
  obtain ⟨u, hu, hkeys, hcfg, hpending⟩ := exec_next i s
  obtain rfl : u = t := by simpa [hu] using hexec
  obtain ⟨e, -, rfl⟩ | ⟨-, rfl⟩ := exec_cases hexec
  · exact ⟨(absurd rfl ·), (absurd rfl ·), (absurd rfl ·), (absurd rfl ·), hkeys, hcfg, hpending⟩
  · exact ⟨(dataAfter_i i s).resolve_left, (dataAfter_disp i s).resolve_left, (dataAfter_dt i s).resolve_left,
      (dataAfter_st i s).resolve_left, hkeys, hcfg, hpending⟩

end Sys2Proof.Machine
end

section
/-! Noninterference: a register that an instruction does not read has no influence on the rest of its effect
(spec/10_state.md R18). -/

namespace Sys2Proof.Machine

/-! ## States that agree but for one register -/

@[simp] theorem State.setReg_setReg_same (s : State) (r : Reg) (b c : Byte) :
    (s.setReg r b).setReg r c = s.setReg r c := by
  simp [State.setReg]

theorem State.setReg_comm (s : State) {r x : Reg} (h : r ≠ x) (b c : Byte) :
    (s.setReg r b).setReg x c = (s.setReg x c).setReg r b := by
  have hval : r.val ≠ x.val := fun e => h (Fin.ext e)
  simp [State.setReg, Vector.set_comm _ _ hval]

/-- `u` is `t`, or `t` with register `r` set to `b`. -/
def AgreeBut (r : Reg) (b : Byte) (t u : State) : Prop := u = t ∨ u = t.setReg r b

theorem AgreeBut.of_setReg (r : Reg) (b : Byte) (s : State) : AgreeBut r b s (s.setReg r b) := .inr rfl

section
variable {r : Reg} {b : Byte} {t u : State}

/-- An update that commutes with a write to `r` keeps the agreement. -/
theorem AgreeBut.map {f : State → State} (hf : ∀ s : State, f (s.setReg r b) = (f s).setReg r b)
    (h : AgreeBut r b t u) : AgreeBut r b (f t) (f u) := by
  obtain rfl | rfl := h
  · exact .inl rfl
  · exact .inr (hf t)

/-- A register write keeps the agreement: it overwrites `r`, or commutes with the write to it. -/
theorem AgreeBut.setReg (h : AgreeBut r b t u) (x : Reg) (c : Byte) : AgreeBut r b (t.setReg x c) (u.setReg x c) := by
  obtain rfl | rfl := h
  · exact .inl rfl
  · by_cases hx : r = x
    · exact .inl (by simp [hx])
    · exact .inr (State.setReg_comm t hx b c)

theorem AgreeBut.setRegFlag (h : AgreeBut r b t u) (x : Reg) (c f : Byte) :
    AgreeBut r b (t.setRegFlag x c f) (u.setRegFlag x c f) :=
  (h.setReg x c).setReg vf f

theorem AgreeBut.commitDraw (h : AgreeBut r b t u) (c : Canvas) : AgreeBut r b (t.commitDraw c) (u.commitDraw c) :=
  (h.map (f := (·.setDisp c.disp)) fun _ => rfl).setReg vf (flagByte c.hit)

/-- A range of registers written over a changed one overwrites it, or leaves it as it was changed. -/
theorem writeRegs_set (bs : List Byte) (v : Vector Byte 16) (k : Nat) (r : Reg) (b : Byte) :
    writeRegs (v.set r.val b) k bs = writeRegs v k bs ∨
    writeRegs (v.set r.val b) k bs = (writeRegs v k bs).set r.val b := by
  by_cases hr : k ≤ r.val ∧ r.val - k < bs.length
  · refine .inl (Vector.ext fun j hj => ?_)
    rw [writeRegs_getElem, writeRegs_getElem, Vector.getElem_set]
    grind
  · refine .inr (Vector.ext fun j hj => ?_)
    simp only [writeRegs_getElem, Vector.getElem_set]
    grind

/-- Writes to a range of registers keep the agreement. -/
theorem AgreeBut.loadRegs (h : AgreeBut r b t u) (bs : List Byte) : AgreeBut r b (t.loadRegs bs) (u.loadRegs bs) := by
  obtain rfl | rfl := h
  · exact .inl rfl
  · exact (writeRegs_set bs t.v 0 r b).imp (congrArg ({ t with v := · })) (congrArg ({ t with v := · }))

end

/-! ## Operands -/

/-- A register that is read reads the same after a change to one that is not. -/
theorem reg_setReg_of_read {i : Instr} {s : State} {r q : Reg} (hr : r ∉ readsRegs s.cfg i) (b : Byte)
    (hq : q ∈ readsRegs s.cfg i) : (s.setReg r b).reg q = s.reg q := by
  have hne : q ≠ r := fun e => hr (e ▸ hq)
  simp [State.reg_setReg, hne]

/-- The source of a shift is one of the registers it reads (R117, R119). -/
theorem shiftSource_setReg {s : State} {r x y : Reg} (hr : r ∉ readsRegs s.cfg (.shrVxVy x y)) (b : Byte) :
    (s.setReg r b).shiftSource x y = s.shiftSource x y := by
  have hread {q : Reg} := reg_setReg_of_read (q := q) hr b
  cases hc : s.cfg.shiftUsesVy with
  | false => simpa [State.shiftSource, hc] using hread (q := x) (by simp [readsRegs, hc])
  | true => simpa [State.shiftSource, hc] using hread (q := y) (by simp [readsRegs, hc])

/-- The offset register is the one BNNN reads (R107). -/
theorem offsetReg_mem_reads (s : State) (nnn : Addr) : s.offsetReg nnn ∈ readsRegs s.cfg (.jpOff nnn) := by
  have hx : bitsIndex (nnn.extractLsb' 8 4) = Fin.ofNat 16 (nnn.toNat / 256) := by
    apply Fin.ext
    simp [bitsIndex, Nat.shiftRight_eq_div_pow]
  unfold State.offsetReg readsRegs
  cases s.cfg.jumpOffsetVx <;> simp [hx]

theorem offsetTarget_setReg {s : State} {r : Reg} {nnn : Addr} (hr : r ∉ readsRegs s.cfg (.jpOff nnn)) (b : Byte) :
    (s.setReg r b).offsetTarget nnn = s.offsetTarget nnn :=
  congrArg (zext16 nnn + BitVec.setWidth 16 ·) (reg_setReg_of_read hr b (offsetReg_mem_reads s nnn))

/-- FX55 reads the registers V0..Vx (R126). -/
theorem regsTo_setReg {s : State} {r x : Reg} (hr : r ∉ regsUpTo x) (b : Byte) :
    (s.setReg r b).regsTo x = s.regsTo x := by
  rw [mem_regsUpTo] at hr
  simp only [State.regsTo, State.setReg_v, Vector.toList_set, List.take_set_of_le (by omega : x.val + 1 ≤ r.val)]

/-! ## What an instruction does with a register it does not read -/

@[simp] theorem breach_setReg (i : Instr) (s : State) (r : Reg) (b : Byte) : breach i (s.setReg r b) = breach i s := by
  cases i <;> rfl

/-- The data an instruction writes agree but for a register that it does not read. -/
theorem dataAfter_setReg {i : Instr} {s : State} {r : Reg} (hr : r ∉ readsRegs s.cfg i) (b : Byte) :
    AgreeBut r b (dataAfter i s) (dataAfter i (s.setReg r b)) := by
  have hs := AgreeBut.of_setReg r b s
  have hread (q : Reg) := reg_setReg_of_read (q := q) hr b
  cases i with
  | ldVxKk x _ | ldVxDt x => exact hs.setReg x _
  | rnd x kk => exact (hs.setReg x _).map (f := State.countDraw) fun _ => rfl
  | addVxKk x kk =>
    simp only [dataAfter, hread x (by simp [readsRegs])]
    exact hs.setReg x _
  | ldVxVy x y =>
    simp only [dataAfter, hread y (by simp [readsRegs])]
    exact hs.setReg x _
  | orVxVy x y | andVxVy x y | xorVxVy x y =>
    simp only [dataAfter, hread x (by simp [readsRegs]), hread y (by simp [readsRegs])]
    exact hs.setReg x _
  | addVxVy x y | subVxVy x y | subnVxVy x y =>
    simp only [dataAfter, hread x (by simp [readsRegs]), hread y (by simp [readsRegs])]
    exact hs.setRegFlag x _ _
  | shrVxVy x y | shlVxVy x y =>
    simp only [dataAfter, shiftSource_setReg hr]
    exact hs.setRegFlag x _ _
  | drw x y n =>
    simp only [dataAfter, State.drawSprite, hread x (by simp [readsRegs]), hread y (by simp [readsRegs])]
    exact hs.commitDraw _
  | ldDtVx x | ldStVx x | addIVx x | ldFVx x | ldBVx x =>
    simp only [dataAfter, hread x (by simp [readsRegs])]
    exact .inr rfl
  | stRange x =>
    simp only [dataAfter, regsTo_setReg hr]
    exact .inr rfl
  | ldRange x => exact hs.loadRegs _
  | _ => exact .inr rfl

theorem pcAfter_setReg {i : Instr} {s : State} {r : Reg} (hr : r ∉ readsRegs s.cfg i) (b : Byte) :
    pcAfter i (s.setReg r b) = pcAfter i s := by
  have hread (q : Reg) := reg_setReg_of_read (q := q) hr b
  cases i with
  | seVxKk x kk | sneVxKk x kk | skp x | sknp x =>
    simp only [pcAfter, hread x (by simp [readsRegs])]
    rfl
  | seVxVy x y | sneVxVy x y =>
    simp only [pcAfter, hread x (by simp [readsRegs]), hread y (by simp [readsRegs])]
    rfl
  | jpOff nnn => exact offsetTarget_setReg hr b
  | _ => rfl

/-- Settles O54: a breach looks at no register; without one the data agree but for the register, and PC is the same. -/
theorem resultsDependOnlyOnTheRegistersRead : Obligations.ResultsDependOnlyOnTheRegistersRead := by
  unfold Obligations.ResultsDependOnlyOnTheRegistersRead
  intro i s r b hr
  cases hb : breach i s with
  | some e => exact ⟨_, exec_of_breach hb, .inr (exec_of_breach (by rw [breach_setReg, hb]))⟩
  | none =>
    refine ⟨_, exec_of_no_breach hb, ?_⟩
    rw [exec_of_no_breach (by rw [breach_setReg, hb]), pcAfter_setReg hr]
    obtain hsame | hbut := (dataAfter_setReg hr b).map (f := (·.setPc (pcAfter i s))) fun _ => rfl
    · exact .inl (congrArg _ hsame)
    · exact .inr (congrArg _ hbut)

end Sys2Proof.Machine
end

section
/-! The invariant of the machine (spec/10_state.md R21, R27, R37; spec/20_memory.md R46): it holds of every state a reset
builds, and every action that answers a next state keeps it. -/

namespace Sys2Proof.Machine

/-! ## What the invariant looks at -/

theorem runAgrees_of_running {s : State} (h : s.runstate = .running) : runAgrees s := by
  simp [runAgrees, h]

theorem runAgrees_of_waiting {s : State} {x : Reg} (h : s.runstate = .waitingForKey x) :
    runAgrees s ↔ s.pc.toNat ≤ 0xFFE ∧ decode (s.word s.pc.toNat) = some (.ldVxK x) := by
  simp [runAgrees, h]

/-- The invariant speaks of memory, stack, PC, run state and configuration alone. -/
theorem State.Inv.of_eq {s t : State} (h : s.Inv) (hmem : t.mem = s.mem) (hstack : t.stack = s.stack)
    (hpc : t.pc = s.pc) (hrun : t.runstate = s.runstate) (hcfg : t.cfg = s.cfg) : t.Inv := by
  obtain ⟨memory, depth, returns, pcBound, run⟩ := h
  cases s
  cases t
  subst hmem hstack hpc hrun hcfg
  exact ⟨memory, depth, returns, pcBound, run⟩

/-- A fatal error keeps the invariant when the state agrees with it, for it changes nothing else (R97). -/
theorem State.Inv.haltedWith {s : State} (h : s.Inv) {e : ErrorRecord} (he : errorAgrees s e) :
    (haltedWith e s).Inv where
  memory := h.memory
  depth := h.depth
  returns := h.returns
  pcBound := h.pcBound
  run := by cases e <;> exact he

theorem max_toNat_of_word (w : Word) : (BitVec.ofNat 16 (max w.toNat 0x1000)).toNat = max w.toNat 0x1000 := by
  have := w.isLt
  rw [BitVec.toNat_ofNat, Nat.mod_eq_of_lt (by omega)]

/-- The error of an access at a word's address is an address past the end of memory (R51). -/
theorem errorAgrees_outOfBounds (s : State) (w : Word) :
    errorAgrees s (.outOfBounds (BitVec.ofNat 16 (max w.toNat 0x1000))) := by
  show 0x1000 ≤ (BitVec.ofNat 16 (max w.toNat 0x1000)).toNat
  rw [max_toNat_of_word]
  exact Nat.le_max_right _ _

theorem errorAgrees_of_rangeBreach {s : State} {n : Nat} {e : ErrorRecord}
    (h : rangeBreach s.i.toNat n = some e) : errorAgrees s e := by
  obtain ⟨-, rfl⟩ := rangeBreach_some h
  exact errorAgrees_outOfBounds s s.i

/-! ## Reset -/

theorem zext16_toNat (a : Addr) : (zext16 a).toNat = a.toNat :=
  BitVec.toNat_setWidth_of_le (by decide)

/-- The state a reset builds meets the invariant before the ROM is placed. -/
theorem State.init_inv (cfg : Config) : (State.init cfg).Inv where
  memory := Memory.wf_nil cfg
  depth := Nat.zero_le _
  returns := fun _ h => nomatch h
  pcBound := by
    have := cfg.loadOrigin.isLt
    have := zext16_toNat cfg.loadOrigin
    show (zext16 cfg.loadOrigin).toNat ≤ 0x10FE
    omega
  run := trivial

/-- A ROM image that fits lies inside memory, so the fresh state meets the invariant. -/
theorem freshState_inv {rom : List Byte} {cfg : Config} (h : rom.length ≤ 4096 - cfg.loadOrigin.toNat) (s : State) :
    (freshState rom cfg s).Inv where
  memory := Memory.wf_writeList cfg rom [] _ (by have := cfg.loadOrigin.isLt; omega) (Memory.wf_nil cfg)
  depth := (State.init_inv cfg).depth
  returns := (State.init_inv cfg).returns
  pcBound := (State.init_inv cfg).pcBound
  run := trivial

/-! ## Instructions -/

/-- The error of a breach names the state it was met in (R37, R142). -/
theorem errorAgrees_of_breach {i : Instr} {s : State} {e : ErrorRecord} (h : breach i s = some e) : errorAgrees s e := by
  cases i with
  | call nnn =>
    by_cases hs : s.stack.length = 16
    · obtain rfl : ErrorRecord.stackOverflow = e := by simpa [breach, hs] using h
      exact hs
    · simp [breach, hs] at h
  | ret =>
    by_cases hs : s.stack = []
    · obtain rfl : ErrorRecord.stackUnderflow = e := by simpa [breach, hs] using h
      exact hs
    · simp [breach, hs] at h
  | drw x y n =>
    by_cases hn : n.val = 0
    · simp [breach, hn] at h
    · exact errorAgrees_of_rangeBreach (by simpa [breach, hn] using h)
  | ldBVx x | stRange x | ldRange x => exact errorAgrees_of_rangeBreach h
  | _ => cases h

/-- What an instruction without a breach stores lies inside memory and keeps its canonical form. -/
theorem dataAfter_memory_wf {i : Instr} {s : State} (hb : breach i s = none) (h : Memory.wf s.cfg s.mem) :
    Memory.wf (dataAfter i s).cfg (dataAfter i s).mem := by
  rw [dataAfter_cfg]
  obtain hkeep | ⟨a, bs, hfits, hstore⟩ := dataAfter_mem hb
  · rwa [hkeep]
  · rw [hstore]
    exact Memory.wf_writeList _ bs _ a hfits h

/-- CALL without a breach finds fewer than 16 entries, and only CALL pushes (R102). -/
theorem dataAfter_depth {i : Instr} {s : State} (hb : breach i s = none) (h : s.stack.length ≤ 16) :
    (dataAfter i s).stack.length ≤ 16 := by
  obtain hkeep | ⟨nnn, rfl, hpush⟩ | ⟨-, hpop⟩ := dataAfter_stack i s
  · rwa [hkeep]
  · have hroom : s.stack.length ≠ 16 := by simpa [breach] using hb
    rw [hpush, List.length_append, List.length_singleton]
    omega
  · rw [hpop, List.length_dropLast]
    omega

/-- From an address that a step can fetch, PC + 2 does not wrap. -/
theorem add_two_toNat {w : Word} (h : w.toNat ≤ 0xFFE) : (w + 2).toNat = w.toNat + 2 := by
  bv_omega

/-- The address CALL pushes is at most 0x1000, since CALL was fetched from at most 0xFFE (R100, R102). -/
theorem dataAfter_returns {i : Instr} {s : State} (hpc : s.pc.toNat ≤ 0xFFE) (h : ∀ w ∈ s.stack, w.toNat ≤ 0x1000) :
    ∀ w ∈ (dataAfter i s).stack, w.toNat ≤ 0x1000 := by
  intro w hw
  obtain hkeep | ⟨nnn, -, hpush⟩ | ⟨-, hpop⟩ := dataAfter_stack i s
  · exact h w (hkeep ▸ hw)
  · rw [hpush, List.mem_append, List.mem_singleton] at hw
    obtain hw | rfl := hw
    · exact h w hw
    · rw [add_two_toNat hpc]
      omega
  · exact h w (List.mem_of_mem_dropLast (hpop ▸ hw))

theorem skipIf_pc_le {s : State} (hpc : s.pc.toNat ≤ 0xFFE) (c : Bool) : (s.skipIf c).pc.toNat ≤ 0x10FE := by
  rw [State.skipIf_eq, State.setPc_pc]
  split <;> bv_omega

theorem zext16_le (a : Addr) : (zext16 a).toNat ≤ 0x10FE := by
  have := a.isLt
  rw [zext16_toNat]
  omega

/-- The target of BNNN is at most 0xFFF + 0xFF and does not wrap (R107). -/
theorem offsetTarget_le (s : State) (nnn : Addr) : (s.offsetTarget nnn).toNat ≤ 0x10FE := by
  have := nnn.isLt
  have := (s.reg (s.offsetReg nnn)).isLt
  rw [State.offsetTarget, BitVec.toNat_add, zext16_toNat, BitVec.toNat_setWidth_of_le (by decide)]
  omega

/-- PC never exceeds 0x10FE after an instruction (R21). -/
theorem pcAfter_le {i : Instr} {s : State} (hpc : s.pc.toNat ≤ 0xFFE) (h : ∀ w ∈ s.stack, w.toNat ≤ 0x1000) :
    (pcAfter i s).toNat ≤ 0x10FE := by
  cases i with
  | ret =>
    obtain hs | ⟨below, top, hs⟩ := stack_cases s.stack
    · simp [pcAfter, hs]
    · have htop := h top (by simp [hs])
      simp only [pcAfter, hs, List.getLastD_concat]
      omega
  | jp nnn | call nnn => exact zext16_le nnn
  | jpOff nnn => exact offsetTarget_le s nnn
  | seVxKk _ _ | sneVxKk _ _ | seVxVy _ _ | sneVxVy _ _ | skp _ | sknp _ => exact skipIf_pc_le hpc _
  | ldVxK x => exact hpc.trans (by decide)
  | _ =>
    have := add_two_toNat hpc
    show (s.pc + 2).toNat ≤ 0x10FE
    omega

/-- The run state agrees after the word at PC was executed: FX0A waits on itself, every other instruction goes on. -/
theorem runAgrees_after {i : Instr} {s : State} (hrun : s.runstate = .running) (hpc : s.pc.toNat ≤ 0xFFE)
    (hdec : decode (s.word s.pc.toNat) = some i) : runAgrees ((dataAfter i s).setPc (pcAfter i s)) := by
  obtain hkeep | ⟨x, rfl, -⟩ := dataAfter_runstate i s
  · exact runAgrees_of_running (hkeep.trans hrun)
  · exact (runAgrees_of_waiting rfl).mpr ⟨hpc, hdec⟩

/-- Executing the instruction at PC keeps the invariant. -/
theorem exec_inv {i : Instr} {s t : State} (h : s.Inv) (hrun : s.runstate = .running) (hpc : s.pc.toNat ≤ 0xFFE)
    (hdec : decode (s.word s.pc.toNat) = some i) (hexec : exec i s = .next t) : t.Inv := by
  obtain ⟨e, hb, rfl⟩ | ⟨hb, rfl⟩ := exec_cases hexec
  · exact h.haltedWith (errorAgrees_of_breach hb)
  · exact {
      memory := dataAfter_memory_wf hb h.memory
      depth := dataAfter_depth hb h.depth
      returns := dataAfter_returns hpc h.returns
      pcBound := pcAfter_le hpc h.returns
      run := runAgrees_after hrun hpc hdec }

/-! ## Actions -/

/-- A step action outside Running, a fetch that leaves memory, the UNKNOWN word, and an instruction keep the invariant. -/
theorem stepAction_inv {s t : State} (h : s.Inv) (ht : stepAction s = .next t) : t.Inv := by
  obtain ⟨-, hstay⟩ | ⟨-, -, hfault⟩ | ⟨hrun, hpc, hword⟩ := stepAction_cases s
  · obtain rfl : s = t := by simpa [hstay] using ht
    exact h
  · obtain rfl : haltedWith _ s = t := by simpa [hfault] using ht
    exact h.haltedWith (errorAgrees_outOfBounds s s.pc)
  · obtain ⟨hdec, hunknown⟩ | ⟨i, hdec, hexec⟩ := execWord_cases (s.word s.pc.toNat) s
    · obtain rfl : haltedWith _ s = t := by simpa [hword, hunknown] using ht
      exact h.haltedWith ⟨rfl, hpc, rfl, hdec⟩
    · exact exec_inv h hrun hpc hdec (by rw [← hexec, ← hword, ht])

theorem tickAction_inv {s : State} (h : s.Inv) : (tickAction s).Inv := by
  unfold tickAction
  split
  · exact h
  · exact h.of_eq rfl rfl rfl rfl rfl
  · exact h.of_eq rfl rfl rfl rfl rfl

/-- A completed wait moves PC past its FX0A, which stands at 0xFFE at most (R154). -/
theorem keyDownAction_inv {s : State} (h : s.Inv) (k : Key) : (keyDownAction k s).Inv := by
  obtain ⟨x, hwait, -, hdown⟩ | hdown := keyDownAction_cases k s
  · obtain ⟨hpc, -⟩ := (runAgrees_of_waiting hwait).mp h.run
    have hnext := add_two_toNat hpc
    rw [hdown]
    exact {
      memory := h.memory
      depth := h.depth
      returns := h.returns
      pcBound := by show (s.pc + 2).toNat ≤ 0x10FE; omega
      run := runAgrees_of_running rfl }
  · rw [hdown]
    exact h.of_eq rfl rfl rfl rfl rfl

/-- Every action that answers a next state keeps the invariant. -/
theorem act_inv {a : Action} {s t : State} (h : s.Inv) (ht : act a s = .next t) : t.Inv := by
  cases a with
  | step => exact stepAction_inv h ht
  | tick =>
    obtain rfl : tickAction s = t := by simpa [act] using ht
    exact tickAction_inv h
  | keyDown k =>
    obtain rfl : keyDownAction k s = t := by simpa [act] using ht
    exact keyDownAction_inv h k
  | keyUp k =>
    obtain rfl : keyUpAction k s = t := by simpa [act] using ht
    exact h.of_eq rfl rfl rfl rfl rfl
  | reset rom cfg =>
    obtain ⟨hfits, -⟩ | ⟨-, hrefused⟩ := resetAction_cases rom cfg s
    · rw [act_reset_eq_next ht]
      exact freshState_inv hfits s
    · simp [act, hrefused] at ht

/-! ## The obligations -/

/-- Settles O48: the reset state is `State.init` with the standard configuration. -/
theorem resetMeetsTheInvariant : Obligations.ResetMeetsTheInvariant :=
  State.init_inv Config.standard

/-- Settles O49: a step is a step action or the oldest action due, and each of them keeps the invariant. -/
theorem everyStepKeepsTheInvariant : Obligations.EveryStepKeepsTheInvariant := by
  unfold Obligations.EveryStepKeepsTheInvariant
  intro s t h ht
  cases hp : s.pending with
  | nil => exact stepAction_inv h (step_nil s hp ▸ ht)
  | cons a rest =>
    have hdue : (s.setPending rest).Inv := h.of_eq rfl rfl rfl rfl rfl
    exact act_inv hdue (step_cons s a rest hp ▸ ht)

end Sys2Proof.Machine
end

section
/-! The run state (spec/10_state.md R35), what the host reads of it (spec/60_exceptions.md R156), and what a reset leaves
(R45, spec/70_reset_and_hazards.md R163). -/

namespace Sys2Proof.Machine

/-! ## The transitions of the run state -/

/-- An instruction that changes the run state halts, changing nothing else, or is FX0A and waits (R35). -/
theorem exec_runstate_cases {i : Instr} {s t : State} (h : exec i s = .next t) :
    t.runstate = s.runstate ∨ (∃ x, i = .ldVxK x ∧ t.runstate = .waitingForKey x) ∨ ∃ e, t = haltedWith e s := by
  obtain ⟨e, -, rfl⟩ | ⟨-, rfl⟩ := exec_cases h
  · exact .inr (.inr ⟨e, rfl⟩)
  · exact (dataAfter_runstate i s).imp_right fun ⟨x, hi, hwait⟩ => .inl ⟨x, hi, by rw [hwait]; rfl⟩

/-- A step action that changes the run state is taken in Running, and starts a wait or meets a fatal error (R35, R97). -/
theorem stepAction_runstate_cases {s t : State} (h : stepAction s = .next t) :
    t.runstate = s.runstate ∨
    (s.runstate = .running ∧
      ((∃ x, decode (s.word s.pc.toNat) = some (.ldVxK x) ∧ t.runstate = .waitingForKey x) ∨
        ∃ e, t = haltedWith e s)) := by
  obtain ⟨-, hstay⟩ | ⟨hrun, -, hfault⟩ | ⟨hrun, -, hword⟩ := stepAction_cases s
  · obtain rfl : s = t := by simpa [hstay] using h
    exact .inl rfl
  · exact .inr ⟨hrun, .inr ⟨_, by simpa [hfault] using h.symm⟩⟩
  · obtain ⟨-, hunknown⟩ | ⟨i, hdec, hexec⟩ := execWord_cases (s.word s.pc.toNat) s
    · exact .inr ⟨hrun, .inr ⟨_, by simpa [hword, hunknown] using h.symm⟩⟩
    · obtain hkeep | ⟨x, rfl, hwait⟩ | hhalt := exec_runstate_cases (hexec ▸ hword ▸ h)
      · exact .inl hkeep
      · exact .inr ⟨hrun, .inl ⟨x, hdec, hwait⟩⟩
      · exact .inr ⟨hrun, .inr hhalt⟩

@[simp] theorem tickAction_runstate (s : State) : (tickAction s).runstate = s.runstate := by
  unfold tickAction
  split <;> rfl

/-- Settles O52, by the kind of action: a step by `stepAction_runstate_cases`, a key-down by its two cases; a tick and a
key-up keep the run state. -/
theorem runStateFollowsItsTransitions : Obligations.RunStateFollowsItsTransitions := by
  unfold Obligations.RunStateFollowsItsTransitions
  intro a s t ha hact hne
  cases a with
  | step => exact .inl ⟨rfl, (stepAction_runstate_cases hact).resolve_left hne⟩
  | tick =>
    obtain rfl : tickAction s = t := by simpa [act] using hact
    exact absurd (tickAction_runstate s) hne
  | keyUp k =>
    obtain rfl : keyUpAction k s = t := by simpa [act] using hact
    exact absurd rfl hne
  | keyDown k =>
    obtain rfl : keyDownAction k s = t := by simpa [act] using hact
    obtain ⟨x, hwait, hup, hdown⟩ | hdown := keyDownAction_cases k s
    · exact .inr ⟨k, x, rfl, hup, hwait, by rw [hdown]; rfl, by rw [hdown]; rfl⟩
    · exact absurd (by rw [hdown]; rfl) hne
  | reset rom cfg => simp [notReset] at ha

/-! ## Outputs -/

/-- Settles O44, by cases on the run state and the error record: each row of R156 is a literal. -/
theorem outputsReadTheState : Obligations.OutputsReadTheState := by
  unfold Obligations.OutputsReadTheState
  intro s
  refine ⟨by simp [State.soundOn], ?_⟩
  unfold State.status State.alive
  generalize s.runstate = r
  cases r with
  | running => simp [statusOf]
  | waitingForKey x => simp [statusOf]
  | halted e => cases e <;> simp [statusOf]

/-! ## Reset -/

/-- The reset contents of the k-th font byte (R33, R45). -/
theorem resetByte_font (cfg : Config) (k : Fin 80) : resetByte cfg (cfg.fontBase.toNat + k.val) = cfg.fontTable[k.val] := by
  simp [resetByte]

/-- The reset contents outside the font are zero (R45). -/
theorem resetByte_outside {cfg : Config} {a : Nat} (h : a < cfg.fontBase.toNat ∨ cfg.fontBase.toNat + 80 ≤ a) :
    resetByte cfg a = 0 :=
  dif_neg (by omega)

theorem freshState_byte_outside {rom : List Byte} {cfg : Config} {a : Nat}
    (h : a < cfg.loadOrigin.toNat ∨ cfg.loadOrigin.toNat + rom.length ≤ a) (s : State) :
    (freshState rom cfg s).byte a = resetByte cfg a := by
  rw [freshState_byte, dif_neg (by omega)]

@[simp] theorem State.init_pixel (cfg : Config) (px : Fin 64) (py : Fin 32) : (State.init cfg).pixel px py = false :=
  Display.pixel_clear px py

@[simp] theorem State.init_key (cfg : Config) (k : Key) : (State.init cfg).key k = false := by
  simp [State.key, State.init]

/-- Settles O46: the fresh state differs from `State.init` in memory and in what is the host's alone. -/
theorem resetBuildsAFreshState : Obligations.ResetBuildsAFreshState := by
  unfold Obligations.ResetBuildsAFreshState
  intro rom cfg s hfits
  have hact : act (.reset rom cfg) s = .next (freshState rom cfg s) := if_pos ((romFits_iff rom cfg).mpr hfits)
  refine ⟨_, hact, zext16_toNat cfg.loadOrigin, rfl, rfl, rfl, rfl, rfl, State.init_pixel cfg, State.init_key cfg, rfl, rfl,
    fun a _ hout => ?_⟩
  rw [freshState_byte_outside hout]
  constructor
  · rintro k rfl
    exact resetByte_font cfg k
  · exact resetByte_outside

/-- Settles O47: the fields of `State.init` with the standard configuration, and the reset contents of memory. -/
theorem resetStateHasTheValuesOfR45 : Obligations.ResetStateHasTheValuesOfR45 := by
  unfold Obligations.ResetStateHasTheValuesOfR45
  have hregs (r : Reg) : State.reset.reg r = 0 := by simp [State.reg, State.reset, State.init, Config.standard]
  exact ⟨rfl, rfl, rfl, rfl, rfl, hregs, State.init_pixel _, State.init_key _, rfl, rfl, by decide, by decide,
    fun a ha => resetByte_outside (.inr ha)⟩

end Sys2Proof.Machine
end

section
/-! Fetch and memory (spec/20_memory.md R46, R54, R56, R64): what a Running step fetches, which actions can change memory,
in which bytes, and that memory stays in its canonical form. -/

namespace Sys2Proof.Machine

/-! ## The fetch -/

/-- The lowest out-of-range address of an access at a word's address (R51), as a word. -/
theorem max_word_eq_ite (w : Word) :
    BitVec.ofNat 16 (max w.toNat 0x1000) = if w.toNat < 0x1000 then 0x1000 else w := by
  split
  · rw [max_eq_right (by omega)]
    rfl
  · rw [max_eq_left (by omega), BitVec.ofNat_toNat, BitVec.setWidth_eq]

/-- Settles O8, by the cases of a Running step: the fetch error, or the word at PC, which is UNKNOWN or an instruction. -/
theorem runningStepFetchesThenDecodes : Obligations.RunningStepFetchesThenDecodes := by
  unfold Obligations.RunningStepFetchesThenDecodes
  intro s hrun
  obtain ⟨hstopped, -⟩ | ⟨-, hpc, hfault⟩ | ⟨-, hpc, hword⟩ := stepAction_cases s
  · exact absurd hrun hstopped
  · rw [max_word_eq_ite] at hfault
    exact ⟨fun _ => hfault, fun _ => by omega⟩
  · refine ⟨fun _ => by omega, ?_⟩
    rintro - w rfl
    change stepAction s = execWord (s.byte s.pc.toNat ++ s.byte (s.pc.toNat + 1)) s at hword
    rw [hword]
    constructor
    · intro hdec
      simp [execWord, hdec, execUnknown, raise_eq]
    · intro i hdec
      simp [execWord, hdec]

/-! ## Which actions change memory -/

/-- A step action leaves memory alone, or is taken in Running and executes the instruction at PC. -/
theorem stepAction_mem_cases {s t : State} (h : stepAction s = .next t) :
    t.mem = s.mem ∨
    (s.runstate = .running ∧ ∃ i, decode (s.word s.pc.toNat) = some i ∧ exec i s = .next t) := by
  obtain ⟨-, hstay⟩ | ⟨-, -, hfault⟩ | ⟨hrun, -, hword⟩ := stepAction_cases s
  · obtain rfl : s = t := by simpa [hstay] using h
    exact .inl rfl
  · obtain rfl : haltedWith _ s = t := by simpa [hfault] using h
    exact .inl rfl
  · obtain ⟨-, hunknown⟩ | ⟨i, hdec, hexec⟩ := execWord_cases (s.word s.pc.toNat) s
    · obtain rfl : haltedWith _ s = t := by simpa [hword, hunknown] using h
      exact .inl rfl
    · exact .inr ⟨hrun, i, hdec, hexec ▸ hword ▸ h⟩

@[simp] theorem tickAction_mem (s : State) : (tickAction s).mem = s.mem := by
  unfold tickAction
  split <;> rfl

@[simp] theorem keyDownAction_mem (k : Key) (s : State) : (keyDownAction k s).mem = s.mem := by
  obtain ⟨x, -, -, h⟩ | h := keyDownAction_cases k s <;> rw [h] <;> rfl

/-- An action other than a reset leaves memory alone, or is a Running step that executes the instruction at PC (R64). -/
theorem act_mem_cases {a : Action} {s t : State} (ha : notReset a = true) (h : act a s = .next t) :
    t.mem = s.mem ∨
    (a = .step ∧ s.runstate = .running ∧ ∃ i, decode (s.word s.pc.toNat) = some i ∧ exec i s = .next t) := by
  cases a with
  | step => exact (stepAction_mem_cases h).imp_right fun hexec => ⟨rfl, hexec⟩
  | tick =>
    obtain rfl : tickAction s = t := by simpa [act] using h
    exact .inl (tickAction_mem s)
  | keyDown k =>
    obtain rfl : keyDownAction k s = t := by simpa [act] using h
    exact .inl (keyDownAction_mem k s)
  | keyUp k =>
    obtain rfl : keyUpAction k s = t := by simpa [act] using h
    exact .inl rfl
  | reset rom cfg => simp [notReset] at ha

/-! ## Which bytes change -/

theorem State.byte_congr {s t : State} (hmem : t.mem = s.mem) (hcfg : t.cfg = s.cfg) (a : Nat) :
    t.byte a = s.byte a := by
  rw [State.byte, State.byte, hmem, hcfg]

/-- FX33 and FX55 store as many bytes as the table of R56 gives them; every other instruction stores none. -/
theorem dataAfter_byte_outside {i : Instr} {s : State} {a : Nat}
    (h : a < (storedBytes i s).1 ∨ (storedBytes i s).1 + (storedBytes i s).2 ≤ a) :
    (dataAfter i s).byte a = s.byte a := by
  cases i with
  | ldBVx x => exact State.byte_store_outside s _ a (bcdDigits (s.reg x)) h
  | stRange x => exact State.byte_store_outside s _ a (s.regsTo x) (by rwa [State.regsTo_length])
  | _ => rfl

/-- A breach stores nothing, and without one an instruction stores only its own bytes. -/
theorem exec_byte_outside {i : Instr} {s t : State} {a : Nat} (hexec : exec i s = .next t)
    (h : a < (storedBytes i s).1 ∨ (storedBytes i s).1 + (storedBytes i s).2 ≤ a) : t.byte a = s.byte a := by
  obtain ⟨e, -, rfl⟩ | ⟨-, rfl⟩ := exec_cases hexec
  · rfl
  · exact dataAfter_byte_outside h

/-- Settles O55: the frame of one instruction, and the only action that executes one. -/
theorem memoryChangesOnlyInTheStoredBytes : Obligations.MemoryChangesOnlyInTheStoredBytes := by
  unfold Obligations.MemoryChangesOnlyInTheStoredBytes
  refine ⟨fun i s t a => exec_byte_outside, fun b s t a hb hact hne => ?_⟩
  obtain hmem | ⟨rfl, hrun, i, hdec, hexec⟩ := act_mem_cases hb hact
  · have hcfg := (configurationChangesOnlyByReset b s t hact).1 hb
    exact absurd (State.byte_congr hmem hcfg a) hne
  · have hinside := mt (exec_byte_outside hexec) hne
    exact ⟨rfl, hrun, i, hdec, by omega, by omega⟩

/-! ## The canonical form -/

/-- An instruction keeps the canonical form: a breach writes nothing, and a store lies inside memory. -/
theorem exec_memory_wf {i : Instr} {s t : State} (h : Memory.wf s.cfg s.mem) (hexec : exec i s = .next t) :
    Memory.wf t.cfg t.mem := by
  obtain ⟨e, -, rfl⟩ | ⟨hb, rfl⟩ := exec_cases hexec
  · exact h
  · exact dataAfter_memory_wf hb h

/-- Every action that answers a next state keeps the canonical form; a reset builds it anew. -/
theorem act_memory_wf {a : Action} {s t : State} (h : Memory.wf s.cfg s.mem) (hact : act a s = .next t) :
    Memory.wf t.cfg t.mem := by
  by_cases ha : notReset a = true
  · obtain hmem | ⟨-, -, i, -, hexec⟩ := act_mem_cases ha hact
    · rwa [hmem, (configurationChangesOnlyByReset a s t hact).1 ha]
    · exact exec_memory_wf h hexec
  · cases a with
    | reset rom cfg =>
      obtain ⟨hfits, -⟩ | ⟨-, hrefused⟩ := resetAction_cases rom cfg s
      · rw [act_reset_eq_next hact]
        exact (freshState_inv hfits s).memory
      · simp [act, hrefused] at hact
    | _ => exact absurd rfl ha

/-- Settles O50: a step is a step action or the oldest action due, and each of them keeps the canonical form. -/
theorem everyStepKeepsMemoryCanonical : Obligations.EveryStepKeepsMemoryCanonical := by
  unfold Obligations.EveryStepKeepsMemoryCanonical
  intro s t h hstep
  cases hp : s.pending with
  | nil => exact act_memory_wf (a := .step) h ((step_nil s hp).symm.trans hstep)
  | cons a rest => exact act_memory_wf (s := s.setPending rest) h ((step_cons s a rest hp).symm.trans hstep)

end Sys2Proof.Machine
end

section
/-! Proofs about the encoding (spec/30_encoding.md R65 to R76): the decoder and the encoder are inverse to each other, the
descriptor slices every word, and the UNKNOWN words are those of R73. -/

namespace Sys2Proof

open Sys2Proof.Machine

/-! ## Decoding an instruction's own word -/

/-- The operation class of an instruction: the row of R70 and R79 its constructor stands for. -/
def Instr.opClass : Instr → OpClass
  | .cls => .cls
  | .ret => .ret
  | .jp _ => .jp
  | .call _ => .call
  | .seVxKk _ _ => .seVxKk
  | .sneVxKk _ _ => .sneVxKk
  | .seVxVy _ _ => .seVxVy
  | .ldVxKk _ _ => .ldVxKk
  | .addVxKk _ _ => .addVxKk
  | .ldVxVy _ _ => .ldVxVy
  | .orVxVy _ _ => .or
  | .andVxVy _ _ => .and
  | .xorVxVy _ _ => .xor
  | .addVxVy _ _ => .addVxVy
  | .subVxVy _ _ => .sub
  | .shrVxVy _ _ => .shr
  | .subnVxVy _ _ => .subn
  | .shlVxVy _ _ => .shl
  | .sneVxVy _ _ => .sneVxVy
  | .ldI _ => .ldI
  | .jpOff _ => .jpOff
  | .rnd _ _ => .rnd
  | .drw _ _ _ => .drw
  | .skp _ => .skp
  | .sknp _ => .sknp
  | .ldVxDt _ => .ldVxDt
  | .ldVxK _ => .ldVxK
  | .ldDtVx _ => .ldDtVx
  | .ldStVx _ => .ldStVx
  | .addIVx _ => .addIVx
  | .ldFVx _ => .ldFVx
  | .ldBVx _ => .ldBVx
  | .stRange _ => .stRange
  | .ldRange _ => .ldRange

/-- The major nibble chooses the row of R72, and the fixed low nibble or low byte, where the row has one, the class. -/
theorem classOf_encode (i : Instr) : classOf (encode i) = i.opClass := by
  cases i with
  | cls | ret => decide
  | jp nnn => exact classOf_op1 _ (opField_wordAddr _ nnn)
  | call nnn => exact classOf_op2 _ (opField_wordAddr _ nnn)
  | seVxKk x kk => exact classOf_op3 _ (opField_wordXkk _ x kk)
  | sneVxKk x kk => exact classOf_op4 _ (opField_wordXkk _ x kk)
  | seVxVy x y =>
    rw [encode, classOf_op5 _ (opField_wordXyn _ x y _), nField_wordXyn]
    rfl
  | ldVxKk x kk => exact classOf_op6 _ (opField_wordXkk _ x kk)
  | addVxKk x kk => exact classOf_op7 _ (opField_wordXkk _ x kk)
  | ldVxVy x y | orVxVy x y | andVxVy x y | xorVxVy x y | addVxVy x y | subVxVy x y | shrVxVy x y | subnVxVy x y
  | shlVxVy x y =>
    rw [encode, classOf_op8 _ (opField_wordXyn _ x y _), nField_wordXyn]
    rfl
  | sneVxVy x y =>
    rw [encode, classOf_op9 _ (opField_wordXyn _ x y _), nField_wordXyn]
    rfl
  | ldI nnn => exact classOf_op10 _ (opField_wordAddr _ nnn)
  | jpOff nnn => exact classOf_op11 _ (opField_wordAddr _ nnn)
  | rnd x kk => exact classOf_op12 _ (opField_wordXkk _ x kk)
  | drw x y n => exact classOf_op13 _ (opField_wordXyn _ x y _)
  | skp x | sknp x =>
    rw [encode, classOf_op14 _ (opField_wordXkk _ x _), kkField_wordXkk]
    rfl
  | ldVxDt x | ldVxK x | ldDtVx x | ldStVx x | addIVx x | ldFVx x | ldBVx x | stRange x | ldRange x =>
    rw [encode, classOf_op15 _ (opField_wordXkk _ x _), kkField_wordXkk]
    rfl

/-- The class of a word fixes what the decoder reads from it. -/
theorem decode_of_classOf {w : Word} {c : OpClass} (h : classOf w = c) :
    decode w = instrOf { describe w with cls := c } := by
  subst h
  rfl

/-- Settles O1: the class of the word is the instruction's own, and each operand of the class is read back from its field
of the format. -/
theorem decodeOfEncodeIsTheInstruction : Obligations.DecodeOfEncodeIsTheInstruction := by
  unfold Obligations.DecodeOfEncodeIsTheInstruction
  intro i
  rw [decode_of_classOf (classOf_encode i)]
  cases i with
  | drw x y n =>
    simp only [Instr.opClass, instrOf, describe, encode, xField_wordXyn, yField_wordXyn, nField_wordXyn,
      bitsIndex_indexBits]
  | _ => simp [Instr.opClass, instrOf, describe, encode]

/-! ## Encoding what a word decodes to -/

/-- What the arm of R71 that gives a class has tested of the word: the fixed bits of the class. -/
def HasFixedBits (w : Word) : OpClass → Prop
  | .cls => w = 0x00E0
  | .ret => w = 0x00EE
  | .jp => opField w = 0x1
  | .call => opField w = 0x2
  | .seVxKk => opField w = 0x3
  | .sneVxKk => opField w = 0x4
  | .seVxVy => opField w = 0x5 ∧ nField w = 0x0
  | .ldVxKk => opField w = 0x6
  | .addVxKk => opField w = 0x7
  | .ldVxVy => opField w = 0x8 ∧ nField w = 0x0
  | .or => opField w = 0x8 ∧ nField w = 0x1
  | .and => opField w = 0x8 ∧ nField w = 0x2
  | .xor => opField w = 0x8 ∧ nField w = 0x3
  | .addVxVy => opField w = 0x8 ∧ nField w = 0x4
  | .sub => opField w = 0x8 ∧ nField w = 0x5
  | .shr => opField w = 0x8 ∧ nField w = 0x6
  | .subn => opField w = 0x8 ∧ nField w = 0x7
  | .shl => opField w = 0x8 ∧ nField w = 0xE
  | .sneVxVy => opField w = 0x9 ∧ nField w = 0x0
  | .ldI => opField w = 0xA
  | .jpOff => opField w = 0xB
  | .rnd => opField w = 0xC
  | .drw => opField w = 0xD
  | .skp => opField w = 0xE ∧ kkField w = 0x9E
  | .sknp => opField w = 0xE ∧ kkField w = 0xA1
  | .ldVxDt => opField w = 0xF ∧ kkField w = 0x07
  | .ldVxK => opField w = 0xF ∧ kkField w = 0x0A
  | .ldDtVx => opField w = 0xF ∧ kkField w = 0x15
  | .ldStVx => opField w = 0xF ∧ kkField w = 0x18
  | .addIVx => opField w = 0xF ∧ kkField w = 0x1E
  | .ldFVx => opField w = 0xF ∧ kkField w = 0x29
  | .ldBVx => opField w = 0xF ∧ kkField w = 0x33
  | .stRange => opField w = 0xF ∧ kkField w = 0x55
  | .ldRange => opField w = 0xF ∧ kkField w = 0x65
  | .unknown => True

/-- In each arm of the decoder the test that chose it is at hand. -/
theorem classOf_hasFixedBits (w : Word) : HasFixedBits w (classOf w) := by
  fun_cases classOf w
  case case3 | case36 => trivial
  all_goals assumption

theorem wordAddr_of_fields {w : Word} {op : BitVec 4} (hop : opField w = op) : wordAddr op (nnnField w) = w := by
  subst hop
  apply BitVec.eq_of_toNat_eq
  rw [wordAddr_toNat, opField_toNat, nnnField_toNat]
  omega

theorem wordXkk_of_fields {w : Word} {op : BitVec 4} {kk : Byte} (hop : opField w = op) (hkk : kkField w = kk) :
    wordXkk op (xField w) kk = w := by
  subst hop hkk
  apply BitVec.eq_of_toNat_eq
  rw [wordXkk_toNat, opField_toNat, xField_val, kkField_toNat]
  omega

theorem wordXyn_of_fields {w : Word} {op n : BitVec 4} (hop : opField w = op) (hn : nField w = bitsIndex n) :
    wordXyn op (xField w) (yField w) n = w := by
  subst hop
  apply BitVec.eq_of_toNat_eq
  have hlow : w.toNat % 16 = n.toNat := by rw [← nField_val, hn, bitsIndex]
  rw [wordXyn_toNat, opField_toNat, xField_val, yField_val]
  omega

/-- Settles O2: the fixed bits of the class and the operands read from the other bits are the whole word again. -/
theorem encodeOfDecodeIsTheWord : Obligations.EncodeOfDecodeIsTheWord := by
  unfold Obligations.EncodeOfDecodeIsTheWord
  intro w i hdec
  have hfixed := classOf_hasFixedBits w
  generalize hc : classOf w = c at hfixed
  rw [decode_of_classOf hc] at hdec
  cases c
  case unknown => exact absurd hdec nofun
  all_goals obtain rfl := Option.some.inj hdec
  case cls | ret => exact hfixed.symm
  case jp | call | ldI | jpOff => exact wordAddr_of_fields hfixed
  case seVxKk | sneVxKk | ldVxKk | addVxKk | rnd => exact wordXkk_of_fields hfixed rfl
  case drw => exact wordXyn_of_fields hfixed (bitsIndex_indexBits _).symm
  case skp | sknp | ldVxDt | ldVxK | ldDtVx | ldStVx | addIVx | ldFVx | ldBVx | stRange | ldRange =>
    exact wordXkk_of_fields hfixed.1 hfixed.2
  all_goals exact wordXyn_of_fields hfixed.1 hfixed.2

/-! ## The descriptor of a word -/

theorem describe_kkAgrees (w : Word) : (describe w).kkAgrees = true := by
  apply decide_eq_true
  apply BitVec.eq_of_toNat_eq
  rw [append_toNat, indexBits_toNat, indexBits_toNat]
  simp only [describe, kkField_toNat, yField_val, nField_val]
  omega

theorem describe_nnnAgrees (w : Word) : (describe w).nnnAgrees = true := by
  apply decide_eq_true
  apply BitVec.eq_of_toNat_eq
  rw [append_toNat, indexBits_toNat]
  simp only [describe, nnnField_toNat, xField_val, kkField_toNat]
  omega

theorem describe_fixedFieldsMatch (w : Word) : (describe w).fixedFieldsMatch = true := by
  have hfixed := classOf_hasFixedBits w
  have hcls : (describe w).cls = classOf w := rfl
  generalize classOf w = c at hfixed hcls
  rw [Descriptor.fixedFieldsMatch, hcls]
  cases c
  case cls | ret => exact decide_eq_true (hfixed ▸ rfl)
  case jp | call | seVxKk | sneVxKk | ldVxKk | addVxKk | ldI | jpOff | rnd | drw | unknown => rfl
  all_goals exact decide_eq_true hfixed.2

/-- Settles O4: the slices are those of the fields, and the three checks of the descriptor hold of them. -/
theorem descriptorSlicesEveryField : Obligations.DescriptorSlicesEveryField := by
  unfold Obligations.DescriptorSlicesEveryField
  intro w
  have hwf : (describe w).wf = true := by
    rw [Descriptor.wf, describe_kkAgrees, describe_nnnAgrees, describe_fixedFieldsMatch]
    rfl
  exact ⟨xField_val w, yField_val w, nField_val w, kkField_toNat w, nnnField_toNat w, hwf, (decode_none_iff w).symm⟩

/-! ## The UNKNOWN words, by their major nibble (R73) -/

/-- An arm that gives a class passes an UNKNOWN word on to the arms after it. -/
theorem ite_eq_unknown_iff {p : Prop} [Decidable p] {c d : OpClass} (hc : c ≠ .unknown) :
    (if p then c else d) = .unknown ↔ ¬p ∧ d = .unknown := by
  split_ifs <;> simp [*]

theorem unknown_op0_iff {w : Word} (h : opField w = 0) :
    classOf w = .unknown ↔ w.toNat ≠ 0x00E0 ∧ w.toNat ≠ 0x00EE := by
  simp [classOf_op0 w h, ite_eq_unknown_iff, ← BitVec.toNat_inj]

theorem unknown_op5_iff {w : Word} (h : opField w = 5) : classOf w = .unknown ↔ w.toNat % 16 ≠ 0 := by
  simp [classOf_op5 w h, nField_eq_iff]

theorem unknown_op8_iff {w : Word} (h : opField w = 8) :
    classOf w = .unknown ↔ 8 ≤ w.toNat % 16 ∧ w.toNat % 16 ≠ 0xE := by
  simp [classOf_op8 w h, ite_eq_unknown_iff, nField_eq_iff]
  omega

theorem unknown_op9_iff {w : Word} (h : opField w = 9) : classOf w = .unknown ↔ w.toNat % 16 ≠ 0 := by
  simp [classOf_op9 w h, nField_eq_iff]

theorem unknown_op14_iff {w : Word} (h : opField w = 14) :
    classOf w = .unknown ↔ w.toNat % 256 ≠ 0x9E ∧ w.toNat % 256 ≠ 0xA1 := by
  simp [classOf_op14 w h, ite_eq_unknown_iff, kkField_eq_iff]

theorem unknown_op15_iff {w : Word} (h : opField w = 15) : classOf w = .unknown ↔
    w.toNat % 256 ∉ [0x07, 0x0A, 0x15, 0x18, 0x1E, 0x29, 0x33, 0x55, 0x65] := by
  simp [classOf_op15 w h, ite_eq_unknown_iff, kkField_eq_iff]

/-- Settles O5: nibble by nibble, a row of R73, or, in the ten majors that have none, the one class of the major. -/
theorem unknownWordsAreTheTableOfR73 : Obligations.UnknownWordsAreTheTableOfR73 := by
  unfold Obligations.UnknownWordsAreTheTableOfR73
  intro w
  rw [decode_none_iff]
  rcases major_cases w with ⟨h, hn⟩ | ⟨h, hn⟩ | ⟨h, hn⟩ | ⟨h, hn⟩ | ⟨h, hn⟩ | ⟨h, hn⟩ | ⟨h, hn⟩ | ⟨h, hn⟩ |
    ⟨h, hn⟩ | ⟨h, hn⟩ | ⟨h, hn⟩ | ⟨h, hn⟩ | ⟨h, hn⟩ | ⟨h, hn⟩ | ⟨h, hn⟩ | ⟨h, hn⟩
  · simp [unknown_op0_iff h, hn]
  · simp [classOf_op1 w h, hn]
  · simp [classOf_op2 w h, hn]
  · simp [classOf_op3 w h, hn]
  · simp [classOf_op4 w h, hn]
  · simp [unknown_op5_iff h, hn]
  · simp [classOf_op6 w h, hn]
  · simp [classOf_op7 w h, hn]
  · simp [unknown_op8_iff h, hn]
  · simp [unknown_op9_iff h, hn]
  · simp [classOf_op10 w h, hn]
  · simp [classOf_op11 w h, hn]
  · simp [classOf_op12 w h, hn]
  · simp [classOf_op13 w h, hn]
  · simp [unknown_op14_iff h, hn]
  · simp [unknown_op15_iff h, hn]

/-! ## Sample words and bytes -/

/-- Settles O3: each row evaluates the decoder on one word. -/
theorem sampleWordsDecodeAsTheTableSays : Obligations.SampleWordsDecodeAsTheTableSays := by
  unfold Obligations.SampleWordsDecodeAsTheTableSays
  decide

/-- The number of a word is its high byte over its low byte (R66). -/
theorem toNat_eq_bytes (w : Word) : w.toNat = (highByte w).toNat * 256 + (lowByte w).toNat :=
  calc w.toNat = (wordOfBytes (highByte w) (lowByte w)).toNat := by rw [wordOfBytes_split]
    _ = _ := append_toNat _ _

/-- Decoding a word's bytes is decoding the word, and takes no byte of what follows (R65). -/
theorem decodeBytes_bytesOfWord {w : Word} {i : Instr} (h : decode w = some i) (rest : List Byte) :
    decodeBytes (bytesOfWord w ++ rest) = .ok (i, rest) := by
  show decodeBytes (highByte w :: lowByte w :: rest) = _
  rw [decodeBytes, wordOfBytes_split, h]

/-- Settles O6: the bytes put the word together again, and the word decodes to its instruction. -/
theorem decodeConsumesTwoBytes : Obligations.DecodeConsumesTwoBytes := by
  unfold Obligations.DecodeConsumesTwoBytes
  intro i rest
  exact ⟨⟨_, _, rfl, toNat_eq_bytes (encode i)⟩, decodeBytes_bytesOfWord (decodeOfEncodeIsTheInstruction i) rest⟩

end Sys2Proof
end

section
/-! The step (spec/40_step.md R87 to R99): which instruction a step runs, what a step outside Running does, where PC stands
after an instruction, and the flag that survives in VF. -/

namespace Sys2Proof.Machine

/-! ## The step action -/

theorem stepAction_of_not_running {s : State} (h : s.runstate ≠ .running) : stepAction s = .next s := by
  obtain ⟨-, hstay⟩ | ⟨hrun, -⟩ | ⟨hrun, -⟩ := stepAction_cases s
  · exact hstay
  · exact absurd hrun h
  · exact absurd hrun h

/-- Settles O9: a step action outside Running stays, and of the transitions of the run state only the key-down starts from
a wait. -/
theorem stepOutsideRunningChangesNothing : Obligations.StepOutsideRunningChangesNothing := by
  unfold Obligations.StepOutsideRunningChangesNothing
  refine fun s => ⟨fun e hhalt => stepAction_of_not_running (by simp [hhalt]), fun x hwait => ?_⟩
  have hnot : s.runstate ≠ .running := by simp [hwait]
  refine ⟨stepAction_of_not_running hnot, fun a t ha hact hne => ?_⟩
  obtain ⟨-, hrun, -⟩ | ⟨k, -, hkey, -⟩ := runStateFollowsItsTransitions a s t ha hact hne
  · exact absurd hrun hnot
  · exact ⟨k, hkey⟩

/-- Settles O7: with no action due the step is a step action, which executes the instruction it fetches. -/
theorem stepRunsTheDecodedInstruction : Obligations.StepRunsTheDecodedInstruction := by
  unfold Obligations.StepRunsTheDecodedInstruction
  intro s i hpending hrun hpc hdec
  obtain ⟨-, hfetched⟩ := runningStepFetchesThenDecodes s hrun
  obtain ⟨-, hexec⟩ := hfetched hpc _ rfl
  rw [step_nil s hpending, hexec i hdec]

/-! ## PC after an instruction -/

theorem skipIf_pc_cases (s : State) (c : Bool) : (s.skipIf c).pc = s.pc + 2 ∨ (s.skipIf c).pc = s.pc + 4 := by
  rw [State.skipIf_eq]
  cases c with
  | false => exact .inl rfl
  | true => exact .inr rfl

/-- The target of BNNN is the exact sum, which does not wrap (R107). -/
theorem offsetTarget_toNat (s : State) (nnn : Addr) :
    (s.offsetTarget nnn).toNat = nnn.toNat + (s.reg (s.offsetReg nnn)).toNat := by
  have := nnn.isLt
  have := (s.reg (s.offsetReg nnn)).isLt
  rw [State.offsetTarget, BitVec.toNat_add, zext16_toNat, BitVec.toNat_setWidth_of_le (by decide)]
  omega

/-- RET without a breach finds a top, which is where it goes (R100). -/
theorem pcAfter_ret {s : State} (h : breach .ret s = none) : s.stack.getLast? = some (pcAfter .ret s) := by
  obtain hs | ⟨below, top, hs⟩ := stack_cases s.stack
  · simp [breach, hs] at h
  · simp [pcAfter, hs]

theorem breach_ret_some {s : State} {e : ErrorRecord} (h : breach .ret s = some e) : e = .stackUnderflow := by
  obtain ⟨-, rfl⟩ : _ ∧ _ = e := by simpa [breach] using h
  rfl

theorem breach_call_some {nnn : Addr} {s : State} {e : ErrorRecord} (h : breach (.call nnn) s = some e) :
    e = .stackOverflow := by
  obtain ⟨-, rfl⟩ : _ ∧ _ = e := by simpa [breach] using h
  rfl

/-- Settles O58, by the two things an instruction can do: a breach halts at the fetch address, and without one `pcAfter` is
of the instruction's kind. -/
theorem pcAfterAnInstructionHasOneOfFourKinds : Obligations.PcAfterAnInstructionHasOneOfFourKinds := by
  unfold Obligations.PcAfterAnInstructionHasOneOfFourKinds
  intro i s t hexec
  obtain ⟨e, hb, rfl⟩ | ⟨hb, rfl⟩ := exec_cases hexec
  · cases i with
    | ret => exact .inr (by rw [breach_ret_some hb])
    | call nnn => exact .inr (by rw [breach_call_some hb])
    | seVxKk _ _ | sneVxKk _ _ | seVxVy _ _ | sneVxVy _ _ | skp _ | sknp _ | jp _ | jpOff _ | ldVxK _ => cases hb
    | _ => exact .inr ⟨rfl, e, hb, rfl⟩
  · cases i with
    | seVxKk _ _ | sneVxKk _ _ | seVxVy _ _ | sneVxVy _ _ | skp _ | sknp _ => exact skipIf_pc_cases s _
    | jp nnn => exact zext16_toNat nnn
    | call nnn => exact .inl (zext16_toNat nnn)
    | ret => exact .inl (pcAfter_ret hb)
    | jpOff nnn =>
      have := (s.reg (s.offsetReg nnn)).isLt
      have htarget := offsetTarget_toNat s nnn
      show nnn.toNat ≤ (s.offsetTarget nnn).toNat ∧ (s.offsetTarget nnn).toNat ≤ nnn.toNat + 255
      omega
    | ldVxK x => rfl
    | _ => exact .inl rfl

/-! ## The flag in VF -/

/-- The flag is written last, so it is in VF whatever the destination of the result (R96, D9). -/
@[simp] theorem State.reg_setRegFlag_vf (s : State) (x : Reg) (b f : Byte) : (s.setRegFlag x b f).reg vf = f :=
  State.reg_setReg_self _ _ _

theorem flagByte_carryOut (a b : Byte) : flagByte (carryOut a b) = if a.toNat + b.toNat > 255 then 1 else 0 := by
  simp [flagByte, carryOut]

theorem flagByte_noBorrow (a b : Byte) : flagByte (noBorrow a b) = if a.toNat ≥ b.toNat then 1 else 0 := by
  simp [flagByte, noBorrow]

theorem flagByte_shiftedOutRight (b : Byte) : (flagByte (shiftedOutRight b)).toNat = b.toNat % 2 := by
  revert b
  decide

theorem flagByte_shiftedOutLeft (b : Byte) : (flagByte (shiftedOutLeft b)).toNat = b.toNat / 128 := by
  revert b
  decide

/-- Settles O27: each of the five writes its flag last, and the flag is computed from the operands at the start. -/
theorem flagSurvivesWhenVfIsTheDestination : Obligations.FlagSurvivesWhenVfIsTheDestination := by
  unfold Obligations.FlagSurvivesWhenVfIsTheDestination
  intro y s
  refine ⟨⟨_, rfl, ?_⟩, ⟨_, rfl, ?_⟩, ⟨_, rfl, ?_⟩, ⟨_, rfl, ?_⟩, ⟨_, rfl, ?_⟩⟩
  all_goals rw [State.advance_eq, State.reg_setPc, State.reg_setRegFlag_vf]
  · exact flagByte_carryOut _ _
  · exact flagByte_noBorrow _ _
  · exact flagByte_noBorrow _ _
  · exact flagByte_shiftedOutRight (s.shiftSource vf y)
  · exact flagByte_shiftedOutLeft (s.shiftSource vf y)

end Sys2Proof.Machine
end

section
/-! Control transfer (spec/41_control.md R100 to R107): where RET, JP, CALL, the register skips and BNNN put PC, and that
they change nothing else but the stack of RET and CALL. -/

namespace Sys2Proof.Machine

/-! ## What an update keeps -/

theorem Keeps.refl (regs : List Reg) (parts : List Part) (s : State) : Keeps regs parts s s := by
  constructor <;> intros <;> rfl

section
variable {regs : List Reg} {parts : List Part} {s t : State}

/-- PC is outside what `Keeps` compares. -/
theorem Keeps.setPc (h : Keeps regs parts s t) (w : Word) : Keeps regs parts s (t.setPc w) := { h with }

theorem Keeps.setStack (h : Keeps regs parts s t) (hp : .stack ∈ parts) (l : List Word) :
    Keeps regs parts s (t.setStack l) :=
  { h with stack := fun hn => absurd hp hn }

end

theorem keeps_skipIf (s : State) (c : Bool) : Keeps [] [] s (s.skipIf c) := (Keeps.refl [] [] s).setPc _

theorem keeps_setStack_setPc (s : State) (l : List Word) (w : Word) : Keeps [] [.stack] s ((s.setStack l).setPc w) :=
  ((Keeps.refl [] [.stack] s).setStack (List.mem_singleton_self _) l).setPc w

/-! ## RET and CALL -/

theorem exec_ret_of_top {s : State} {below : List Word} {top : Word} (h : s.stack = below ++ [top]) :
    exec .ret s = .next ((s.setStack below).setPc top) := by
  rw [exec_of_no_breach (by simp [breach, h])]
  simp [dataAfter, pcAfter, h]

/-- Settles O13: without a breach RET moves the top from the stack to PC, and the breach of RET is the empty stack. -/
theorem returnPopsTheTopIntoPc : Obligations.ReturnPopsTheTopIntoPc := by
  unfold Obligations.ReturnPopsTheTopIntoPc
  intro s
  constructor
  · intro below top hs
    exact ⟨_, exec_ret_of_top hs, rfl, rfl, keeps_setStack_setPc s below top⟩
  · intro hs
    exact exec_of_breach (by simp [breach, hs])

/-- Settles O15: without a breach CALL pushes PC + 2 and moves PC, and the breach of CALL is the stack of 16 entries. -/
theorem callPushesTheNextAddress : Obligations.CallPushesTheNextAddress := by
  unfold Obligations.CallPushesTheNextAddress
  intro nnn s
  constructor
  · intro hs
    exact ⟨_, exec_of_no_breach (by simp [breach, hs]), zext16_toNat nnn, rfl, keeps_setStack_setPc s _ _⟩
  · intro hs
    exact exec_of_breach (by simp [breach, hs])

/-! ## JP -/

/-- The second byte of a word at 0xFFF lies past memory, at 0x1000 (R51, R143; decision D20). -/
theorem stepAction_at_0xFFF {s : State} (hrun : s.runstate = .running) (hpc : s.pc = 0xFFF) :
    stepAction s = .next (haltedWith (.outOfBounds 0x1000) s) := by
  obtain ⟨hfault, -⟩ := runningStepFetchesThenDecodes s hrun
  simpa [hpc] using hfault

/-- Settles O14: JP is one write of PC; the fetch at 0xFFF is the step's, and writing PC's own value changes nothing. -/
theorem jumpSetsPc : Obligations.JumpSetsPc := by
  unfold Obligations.JumpSetsPc
  intro nnn s
  refine ⟨wordAddr_toNat 1 nnn, ⟨_, rfl, zext16_toNat nnn, (Keeps.refl [] [] s).setPc _, ?_⟩, ?_⟩
  · rintro rfl hrun
    exact ⟨_, stepAction_at_0xFFF hrun rfl, rfl⟩
  · intro hself
    have htarget : zext16 nnn = s.pc := BitVec.eq_of_toNat_eq ((zext16_toNat nnn).trans hself)
    show Host.Outcome.next (s.setPc (zext16 nnn)) = .next s
    rw [htarget]
    rfl

/-! ## Skips -/

theorem skipIf_pc (s : State) (c : Bool) : (s.skipIf c).pc = s.pc + (if c then 4 else 2) := by
  rw [State.skipIf_eq]
  cases c <;> rfl

/-- Settles O16: each is a skip on a comparison, `==` in SE and `!=` in SNE, and a skip moves PC alone. -/
theorem registerSkipsMovePcByTwoOrFour : Obligations.RegisterSkipsMovePcByTwoOrFour := by
  unfold Obligations.RegisterSkipsMovePcByTwoOrFour
  intro x y kk s
  refine ⟨⟨_, rfl, ?_, keeps_skipIf s (s.reg x == kk)⟩, ⟨_, rfl, ?_, keeps_skipIf s (s.reg x != kk)⟩,
    ⟨_, rfl, ?_, keeps_skipIf s (s.reg x == s.reg y)⟩, ⟨_, rfl, ?_, keeps_skipIf s (s.reg x != s.reg y)⟩⟩
  all_goals simp [skipIf_pc]

/-! ## BNNN -/

/-- The offset register is V0, or the one numbered by the high nibble of nnn (R107). -/
theorem offsetReg_eq {nnn : Addr} {x : Reg} (hx : x.val = nnn.toNat / 256) (s : State) :
    s.offsetReg nnn = if s.cfg.jumpOffsetVx then x else 0 := by
  have hnibble : bitsIndex (nnn.extractLsb' 8 4) = x := by
    apply Fin.ext
    have := nnn.isLt
    simp only [bitsIndex, BitVec.extractLsb'_toNat, Nat.shiftRight_eq_div_pow]
    omega
  rw [State.offsetReg, hnibble]

/-- Settles O18: the target is the exact sum of `offsetTarget_toNat`, and `offsetReg_eq` says which register is added. -/
theorem jumpWithOffsetAddsTheChosenRegister : Obligations.JumpWithOffsetAddsTheChosenRegister := by
  unfold Obligations.JumpWithOffsetAddsTheChosenRegister
  intro nnn x s hx
  refine ⟨_, rfl, ?_, (Keeps.refl [] [] s).setPc _⟩
  rw [State.setPc_pc, offsetTarget_toNat, offsetReg_eq hx]
  split <;> rfl

end Sys2Proof.Machine
end

section
/-! The register ALU and RND (spec/42_alu.md R108 to R120): each writes a result to Vx, the arithmetic and the shifts then
a flag to VF, RND uses up a draw, and nothing else changes but PC. -/

namespace Sys2Proof.Machine

/-! ## What a register write keeps -/

section
variable {regs : List Reg} {parts : List Part} {s t : State}

theorem Keeps.setReg (h : Keeps regs parts s t) {x : Reg} (hx : x ∈ regs) (b : Byte) :
    Keeps regs parts s (t.setReg x b) :=
  { h with
    register := fun r hr => by
      have hne : r ≠ x := fun e => hr (e ▸ hx)
      rw [State.reg_setReg, if_neg hne, h.register r hr] }

theorem Keeps.setRegFlag (h : Keeps regs parts s t) {x : Reg} (hx : x ∈ regs) (hvf : vf ∈ regs) (b f : Byte) :
    Keeps regs parts s (t.setRegFlag x b f) :=
  (h.setReg hx b).setReg hvf f

theorem Keeps.countDraw (h : Keeps regs parts s t) (hp : .draws ∈ parts) : Keeps regs parts s t.countDraw :=
  { h with draws := fun hn => absurd hp hn }

end

theorem keeps_setReg_advance (s : State) (x : Reg) (b : Byte) : Keeps [x] [] s (s.setReg x b).advance :=
  ((Keeps.refl [x] [] s).setReg (List.mem_singleton_self x) b).setPc _

theorem reg_setReg_advance (s : State) (x : Reg) (b : Byte) : (s.setReg x b).advance.reg x = b :=
  State.reg_setReg_self s x b

/-! ## Loads, 7XKK and the bitwise operations -/

/-- Settles O19: both are one register write. -/
theorem loadsSetOneRegister : Obligations.LoadsSetOneRegister := by
  unfold Obligations.LoadsSetOneRegister
  intro x y kk s
  exact ⟨⟨_, rfl, reg_setReg_advance s x kk, rfl, keeps_setReg_advance s x kk⟩,
    ⟨_, rfl, reg_setReg_advance s x (s.reg y), rfl, keeps_setReg_advance s x (s.reg y)⟩⟩

/-- Settles O20: the sum of bytes is the sum mod 256, written to Vx alone. -/
theorem addImmediateWrapsAndSetsNoFlag : Obligations.AddImmediateWrapsAndSetsNoFlag := by
  unfold Obligations.AddImmediateWrapsAndSetsNoFlag
  intro x kk s
  refine ⟨_, rfl, ?_, rfl, keeps_setReg_advance s x (s.reg x + kk)⟩
  rw [reg_setReg_advance, BitVec.toNat_add]

/-- Settles O21: the operations on bytes are bit by bit, and Vx alone is written. -/
theorem bitwiseOperationsLeaveVfAlone : Obligations.BitwiseOperationsLeaveVfAlone := by
  unfold Obligations.BitwiseOperationsLeaveVfAlone
  intro x y s
  refine ⟨⟨_, rfl, rfl, keeps_setReg_advance s x (s.reg x ||| s.reg y), fun k => ?_⟩,
    ⟨_, rfl, rfl, keeps_setReg_advance s x (s.reg x &&& s.reg y), fun k => ?_⟩,
    ⟨_, rfl, rfl, keeps_setReg_advance s x (s.reg x ^^^ s.reg y), fun k => ?_⟩⟩
  all_goals rw [reg_setReg_advance]
  · exact BitVec.getLsbD_or
  · exact BitVec.getLsbD_and
  · exact BitVec.getLsbD_xor

/-! ## The instructions with a flag -/

/-- What an instruction that writes a result and then a flag does: the flag is in VF, and the result in Vx unless the flag
overwrote it (R96, R121). -/
theorem exec_resultAndFlag {i : Instr} {s : State} {x : Reg} {b f : Byte}
    (h : exec i s = .next (s.setRegFlag x b f).advance) :
    ∃ t, exec i s = .next t ∧ t.pc = s.pc + 2 ∧ Keeps [x, vf] [] s t ∧ (x ≠ vf → t.reg x = b) ∧ t.reg vf = f := by
  refine ⟨_, h, rfl, ?_, fun hx => ?_, State.reg_setRegFlag_vf s x b f⟩
  · exact ((Keeps.refl [x, vf] [] s).setRegFlag (by simp) (by simp) b f).setPc _
  · rw [State.advance_eq, State.reg_setPc, State.reg_setRegFlag, if_neg hx, if_pos rfl]

/-- The difference of two bytes, without a negative number. -/
theorem toNat_byte_sub (a b : Byte) : (a - b).toNat = (a.toNat + 256 - b.toNat) % 256 := by
  have := b.isLt
  rw [BitVec.toNat_sub]
  omega

/-- Settles O22: the result is the sum of the operands and the flag their carry. -/
theorem addSetsCarry : Obligations.AddSetsCarry := by
  unfold Obligations.AddSetsCarry
  intro x y s
  obtain ⟨t, hexec, hpc, hkeeps, hresult, hflag⟩ := exec_resultAndFlag (i := .addVxVy x y) (s := s) rfl
  refine ⟨t, hexec, hpc, hkeeps, fun hx => ?_, hflag.trans (flagByte_carryOut _ _)⟩
  rw [hresult hx, BitVec.toNat_add]

/-- Settles O23: the result is Vx − Vy and the flag their no-borrow. -/
theorem subtractSetsNoBorrow : Obligations.SubtractSetsNoBorrow := by
  unfold Obligations.SubtractSetsNoBorrow
  intro x y s
  obtain ⟨t, hexec, hpc, hkeeps, hresult, hflag⟩ := exec_resultAndFlag (i := .subVxVy x y) (s := s) rfl
  refine ⟨t, hexec, hpc, hkeeps, fun hx => ?_, hflag.trans (flagByte_noBorrow _ _)⟩
  rw [hresult hx, toNat_byte_sub]

/-- Settles O24: as SUB, with the operands the other way round in the result and in the flag. -/
theorem reverseSubtractSetsNoBorrow : Obligations.ReverseSubtractSetsNoBorrow := by
  unfold Obligations.ReverseSubtractSetsNoBorrow
  intro x y s
  obtain ⟨t, hexec, hpc, hkeeps, hresult, hflag⟩ := exec_resultAndFlag (i := .subnVxVy x y) (s := s) rfl
  refine ⟨t, hexec, hpc, hkeeps, fun hx => ?_, hflag.trans (flagByte_noBorrow _ _)⟩
  rw [hresult hx, toNat_byte_sub]

theorem toNat_byte_shiftRight_one (b : Byte) : (b >>> 1).toNat = b.toNat / 2 := by
  rw [BitVec.toNat_ushiftRight, Nat.shiftRight_eq_div_pow, pow_one]

theorem toNat_byte_shiftLeft_one (b : Byte) : (b <<< 1).toNat = 2 * b.toNat % 256 := by
  rw [BitVec.toNat_shiftLeft, Nat.shiftLeft_eq, pow_one, Nat.mul_comm]

/-- Settles O25: both shift the source that `shiftSource` chooses, for either value of the toggle. -/
theorem shiftsMoveTheBitOutIntoVf : Obligations.ShiftsMoveTheBitOutIntoVf := by
  unfold Obligations.ShiftsMoveTheBitOutIntoVf
  intro x y src s hsrc
  have hsource : s.shiftSource x y = src := hsrc.symm
  constructor
  · obtain ⟨t, hexec, hpc, hkeeps, hresult, hflag⟩ := exec_resultAndFlag (i := .shrVxVy x y) (s := s) rfl
    rw [hsource] at hresult hflag
    refine ⟨t, hexec, hpc, hkeeps, fun hx => ?_, ?_⟩
    · rw [hresult hx, toNat_byte_shiftRight_one]
    · rw [hflag, flagByte_shiftedOutRight]
  · obtain ⟨t, hexec, hpc, hkeeps, hresult, hflag⟩ := exec_resultAndFlag (i := .shlVxVy x y) (s := s) rfl
    rw [hsource] at hresult hflag
    refine ⟨t, hexec, hpc, hkeeps, fun hx => ?_, ?_⟩
    · rw [hresult hx, toNat_byte_shiftLeft_one]
    · rw [hflag, flagByte_shiftedOutLeft]

/-- Settles O26, from the obligations on ADD, SUB and the shifts: with equal operands the toggle chooses nothing. -/
theorem registerArithmeticWrapsModulo256 : Obligations.RegisterArithmeticWrapsModulo256 := by
  unfold Obligations.RegisterArithmeticWrapsModulo256
  intro x y s hx
  obtain ⟨tadd, hadd, -, -, hsum, hcarry⟩ := addSetsCarry x y s
  obtain ⟨tsub, hsub, -, -, hdiff, hborrow⟩ := subtractSetsNoBorrow x y s
  obtain ⟨⟨tshr, hshr, -, -, hhalf, -⟩, tshl, hshl, -, -, hdouble, -⟩ :=
    shiftsMoveTheBitOutIntoVf x x (s.reg x) s (ite_self _).symm
  refine ⟨⟨tadd, hadd, hsum hx, by simp [hcarry]⟩, ⟨tsub, hsub, ?_, by simp [hborrow]⟩, ⟨tshl, hshl, hdouble hx⟩,
    ⟨tshr, hshr, hhalf hx⟩⟩
  have := (s.reg y).isLt
  have := hdiff hx
  omega

/-! ## RND -/

theorem keeps_setReg_countDraw_advance (s : State) (x : Reg) (b : Byte) :
    Keeps [x] [.draws] s (s.setReg x b).countDraw.advance :=
  (((Keeps.refl [x] [.draws] s).setReg (List.mem_singleton_self x) b).countDraw (List.mem_singleton_self _)).setPc _

/-- Settles O28: Vx is the draw and kk bit by bit, whatever the draw is, so it is at most kk. -/
theorem randomMasksTheDraw : Obligations.RandomMasksTheDraw := by
  unfold Obligations.RandomMasksTheDraw
  rintro x kk r s rfl
  have hmask : (s.setReg x (Config.rnd8 s.draws &&& kk)).countDraw.advance.reg x = Config.rnd8 s.draws &&& kk :=
    State.reg_setReg_self s x _
  refine ⟨_, rfl, rfl, rfl, keeps_setReg_countDraw_advance s x _, fun k => ?_, ?_, ?_⟩ <;> rw [hmask]
  · exact BitVec.getLsbD_and
  · rintro rfl
    exact BitVec.and_zero
  · rw [BitVec.toNat_and]
    exact Nat.and_le_right

end Sys2Proof.Machine
end

section
/-! The index register and the memory transfers (spec/43_index_memory.md R122 to R127): what each writes to I, to memory or
to V0..Vx, that nothing else changes but PC, and the fatal error of an access past 0xFFF. -/

namespace Sys2Proof.Machine

/-! ## What the updates keep -/

section
variable {regs : List Reg} {parts : List Part} {s t : State}

theorem Keeps.setI (h : Keeps regs parts s t) (hp : .index ∈ parts) (w : Word) : Keeps regs parts s (t.setI w) :=
  { h with index := fun hn => absurd hp hn }

theorem Keeps.setMem (h : Keeps regs parts s t) (hp : .memory ∈ parts) (m : Memory) : Keeps regs parts s (t.setMem m) :=
  { h with memory := fun hn => absurd hp hn }

end

theorem keeps_setI_advance (s : State) (w : Word) : Keeps [] [.index] s (s.setI w).advance :=
  ((Keeps.refl [] [.index] s).setI (List.mem_singleton_self _) w).setPc _

theorem keeps_store_setPc (s : State) (a : Nat) (bs : List Byte) (w : Word) :
    Keeps [] [.memory] s ((s.store a bs).setPc w) :=
  ((Keeps.refl [] [.memory] s).setMem (List.mem_singleton_self _) _).setPc w

/-- A load of the range V0..Vx leaves the registers above Vx alone (R127). -/
theorem keeps_loadRegs (s : State) (a : Nat) (x : Reg) :
    Keeps (regsUpTo x) [] s (s.loadRegs (s.bytes a (x.val + 1))) :=
  { Keeps.refl (regsUpTo x) [] s with
    register := fun r hr => by
      rw [mem_regsUpTo] at hr
      rw [State.reg_loadRegs, if_neg hr] }

/-- A fatal error changes the run state alone (R97). -/
theorem keeps_haltedWith (e : ErrorRecord) (s : State) : Keeps [] [.runstate] s (haltedWith e s) :=
  { Keeps.refl [] [.runstate] s with runstate := fun hn => absurd (List.mem_singleton_self _) hn }

/-! ## The index register -/

/-- Settles O29: ANNN is one write of I. -/
theorem loadIndexSetsI : Obligations.LoadIndexSetsI := by
  unfold Obligations.LoadIndexSetsI
  intro nnn s
  have hI : (zext16 nnn).toNat = nnn.toNat := zext16_toNat nnn
  refine ⟨wordAddr_toNat 0xA nnn, _, rfl, hI, ?_, rfl, keeps_setI_advance s (zext16 nnn)⟩
  exact hI.trans_le (Nat.le_of_lt_succ nnn.isLt)

/-- A glyph address never wraps: FONT_BASE has 12 bits and the glyph of digit F starts 75 bytes above it (R124). -/
theorem glyphAddress_toNat (cfg : Config) (b : Byte) :
    (glyphAddress cfg b).toNat = cfg.fontBase.toNat + 5 * (b.toNat % 16) := by
  have := cfg.fontBase.isLt
  rw [glyphAddress, BitVec.toNat_ofNat, Nat.mod_eq_of_lt (by omega)]

/-- Settles O30: both are one write of I, of a sum that wraps for FX1E and of a glyph address, which does not, for FX29. -/
theorem indexArithmeticWritesNoFlag : Obligations.IndexArithmeticWritesNoFlag := by
  unfold Obligations.IndexArithmeticWritesNoFlag
  intro x s
  refine ⟨⟨_, rfl, ?_, rfl, keeps_setI_advance s _⟩, ⟨_, rfl, glyphAddress_toNat s.cfg (s.reg x), rfl,
    keeps_setI_advance s _⟩⟩
  show (s.i + (s.reg x).setWidth 16).toNat = (s.i.toNat + (s.reg x).toNat) % 65536
  rw [BitVec.toNat_add, BitVec.toNat_setWidth_of_le (by decide)]

/-! ## Accesses inside memory and past its end -/

/-- The breach of an access at a word's address, with the address that R51 records (decision D20). -/
theorem rangeBreach_of_word {w : Word} {n : Nat} (h : 0x1000 < w.toNat + n) :
    rangeBreach w.toNat n = some (.outOfBounds (if w.toNat < 0x1000 then 0x1000 else w)) := by
  rw [rangeBreach, if_neg (Nat.not_le_of_lt h), max_word_eq_ite]

/-- A byte inside a store is the one stored there. -/
theorem State.byte_store_inside (s : State) (a k : Nat) (bs : List Byte) (hk : k < bs.length) :
    (s.store a bs).byte (a + k) = bs[k] := by
  rw [State.store_eq, State.byte_store, dif_pos (by omega)]
  simp only [Nat.add_sub_cancel_left]

/-! ## FX33 -/

/-- The stored digits as numbers, hundreds first: none is reduced by its width, for each is below 256 (R125). -/
theorem byte_store_bcdDigits (s : State) (a : Nat) (b : Byte) :
    ((s.store a (bcdDigits b)).byte a).toNat = b.toNat / 100 ∧
    ((s.store a (bcdDigits b)).byte (a + 1)).toNat = b.toNat / 10 % 10 ∧
    ((s.store a (bcdDigits b)).byte (a + 2)).toNat = b.toNat % 10 := by
  have := b.isLt
  have hdigit (k : Nat) (hk : k < 3) := State.byte_store_inside s a k (bcdDigits b) hk
  refine ⟨(congrArg BitVec.toNat (hdigit 0 (by decide))).trans (Nat.mod_eq_of_lt ?_),
    (congrArg BitVec.toNat (hdigit 1 (by decide))).trans (Nat.mod_eq_of_lt ?_),
    (congrArg BitVec.toNat (hdigit 2 (by decide))).trans (Nat.mod_eq_of_lt ?_)⟩ <;> omega

/-- Settles O31: the stored bytes are the digits, whose weighted sum is Vx; past 0xFFF the access is a breach. -/
theorem bcdStoresThreeDigits : Obligations.BcdStoresThreeDigits := by
  unfold Obligations.BcdStoresThreeDigits
  intro x s
  constructor
  · intro hin
    have hbreach : breach (.ldBVx x) s = none := rangeBreach_none.mpr (by omega)
    have := (s.reg x).isLt
    obtain ⟨hhundreds, htens, hones⟩ := byte_store_bcdDigits s s.i.toNat (s.reg x)
    refine ⟨_, exec_of_no_breach hbreach, rfl, keeps_store_setPc s _ _ _, ?_, ?_, ?_, ?_,
      fun a ha => dataAfter_byte_outside (i := .ldBVx x) ha⟩
    all_goals simp only [State.byte_setPc, dataAfter, hhundreds, htens, hones]
    all_goals omega
  · intro hout
    exact exec_of_breach (rangeBreach_of_word (by omega))

/-! ## FX55 and FX65 -/

/-- The word of an instruction FXKK (R67). -/
theorem wordXkk_F_toNat (x : Reg) (kk : Byte) : (wordXkk 0xF x kk).toNat = 0xF000 + kk.toNat + 256 * x.val := by
  rw [wordXkk_toNat]
  show 0xF000 + _ = _
  omega

/-- Settles O32: the byte at I + i is the i-th of V0..Vx; past 0xFFF the access is a breach. -/
theorem storeRangeWritesTheRegisters : Obligations.StoreRangeWritesTheRegisters := by
  unfold Obligations.StoreRangeWritesTheRegisters
  intro x s
  refine ⟨wordXkk_F_toNat x 0x55, fun hin => ?_, fun hout => ?_⟩
  · have hbreach : breach (.stRange x) s = none := rangeBreach_none.mpr (by omega)
    refine ⟨_, exec_of_no_breach hbreach, rfl, keeps_store_setPc s _ _ _, fun r hr => ?_, fun a ha => ?_⟩
    · have hlen : r.val < (s.regsTo x).length := by rw [State.regsTo_length]; omega
      exact (State.byte_store_inside s _ _ _ hlen).trans (State.regsTo_getElem s x r hlen)
    · exact dataAfter_byte_outside (i := .stRange x) (ha.imp_right Nat.succ_le_of_lt)
  · have hbreach : breach (.stRange x) s = some _ := rangeBreach_of_word (by omega)
    exact ⟨_, exec_of_breach hbreach, keeps_haltedWith _ s, rfl⟩

/-- Settles O33: `State.reg_loadRegs` says what each register holds; past 0xFFF the access is a breach. -/
theorem loadRangeReadsTheRegisters : Obligations.LoadRangeReadsTheRegisters := by
  unfold Obligations.LoadRangeReadsTheRegisters
  intro x s
  refine ⟨wordXkk_F_toNat x 0x65, fun hin => ?_, fun hout => ?_⟩
  · have hbreach : breach (.ldRange x) s = none := rangeBreach_none.mpr (by omega)
    have hreg (r : Reg) := State.reg_loadRegs s s.i.toNat x r
    exact ⟨_, exec_of_no_breach hbreach, rfl, (keeps_loadRegs s _ x).setPc _, fun r hr => (hreg r).trans (if_pos hr),
      fun r hr => (hreg r).trans (if_neg (Nat.not_le_of_lt hr))⟩
  · have hbreach : breach (.ldRange x) s = some _ := rangeBreach_of_word (by omega)
    exact ⟨_, exec_of_breach hbreach, keeps_haltedWith _ s, rfl⟩

end Sys2Proof.Machine
end

section
/-! The display (spec/44_display.md R128 to R132): a draw flips each pixel a sprite bit of 1 lands on exactly once, because
no two bits of a sprite land on the same pixel, so its collision is read off the buffer before the draw. -/

namespace Sys2Proof.Machine

/-- A set of pixels of the 64 by 32 grid, by column and row (R30). -/
abbrev PixelSet := Fin 64 → Fin 32 → Prop

/-! ## A draw as a set of flipped pixels -/

/-- From `c` to `d` the pixels of `S`, and no others, are inverted, and a hit is added when one of them was 1
(R129, R131). -/
structure Canvas.Flips (S : PixelSet) (c d : Canvas) : Prop where
  covered : ∀ {px py}, S px py → d.disp.pixel px py = !c.disp.pixel px py
  uncovered : ∀ {px py}, ¬ S px py → d.disp.pixel px py = c.disp.pixel px py
  hit : d.hit = true ↔ c.hit = true ∨ ∃ px py, S px py ∧ c.disp.pixel px py = true

section
variable {S T : PixelSet} {c d e : Canvas}

theorem Canvas.Flips.of_empty (hS : ∀ px py, ¬ S px py) (c : Canvas) : Canvas.Flips S c c where
  covered h := absurd h (hS _ _)
  uncovered _ := rfl
  hit := by simp [hS]

theorem Canvas.Flips.congr (h : Canvas.Flips S c d) (hST : ∀ px py, S px py ↔ T px py) : Canvas.Flips T c d := by
  have hset : S = T := funext fun px => funext fun py => propext (hST px py)
  exact hset ▸ h

/-- Two draws on disjoint sets flip their union: neither draw sees what the other one flipped. -/
theorem Canvas.Flips.trans (hcd : Canvas.Flips S c d) (hde : Canvas.Flips T d e)
    (hdisj : ∀ px py, S px py → ¬ T px py) : Canvas.Flips (fun px py => S px py ∨ T px py) c e where
  covered h := by
    obtain hS | hT := h
    · rw [hde.uncovered (hdisj _ _ hS), hcd.covered hS]
    · rw [hde.covered hT, hcd.uncovered fun hS => hdisj _ _ hS hT]
  uncovered h := by
    obtain ⟨hS, hT⟩ := not_or.mp h
    rw [hde.uncovered hT, hcd.uncovered hS]
  hit := by
    have hsame : ∀ px py, (T px py ∧ d.disp.pixel px py = true) ↔ (T px py ∧ c.disp.pixel px py = true) :=
      fun px py => and_congr_right fun hT => by rw [hcd.uncovered fun hS => hdisj px py hS hT]
    simp only [hde.hit, hcd.hit, hsame, or_and_right, exists_or, or_assoc]

/-- A pixel goes from 1 to 0 exactly when it is flipped and was 1. -/
theorem Canvas.Flips.cleared_iff (h : Canvas.Flips S c d) (px : Fin 64) (py : Fin 32) :
    (c.disp.pixel px py = true ∧ d.disp.pixel px py = false) ↔ (S px py ∧ c.disp.pixel px py = true) := by
  by_cases hS : S px py
  · simp [h.covered hS, hS]
  · simp [h.uncovered hS, hS]

/-- Draws made one after another, on pairwise disjoint sets, flip the union of their sets. -/
theorem Canvas.Flips.foldl_range {draw : Canvas → Nat → Canvas} {S : Nat → PixelSet} (n : Nat)
    (hdraw : ∀ k c, Canvas.Flips (S k) c (draw c k))
    (hdisj : ∀ j k px py, j < k → k < n → S j px py → ¬ S k px py) (c : Canvas) :
    Canvas.Flips (fun px py => ∃ k < n, S k px py) c ((List.range n).foldl draw c) := by
  induction n with
  | zero => exact .of_empty (by simp) c
  | succ n ih =>
    have hfirst := ih fun j k px py hjk hk => hdisj j k px py hjk (Nat.lt_succ_of_lt hk)
    rw [List.range_succ, List.foldl_append]
    refine (hfirst.trans (hdraw n _) ?_).congr fun px py => Nat.exists_lt_succ_right.symm
    rintro px py ⟨j, hj, hSj⟩
    exact hdisj j n px py hj (Nat.lt_succ_self n) hSj

end

/-! ## The pixels of a bit, of a row and of a sprite -/

/-- A pixel determines the column mod 64 and the row mod 32 of a bit that lands on it (R130). -/
theorem mod_eq_of_lands {wrap : Bool} {cx cy : Nat} {px : Fin 64} {py : Fin 32} (h : lands wrap cx cy px py) :
    cx % 64 = px.val ∧ cy % 32 = py.val := by
  have := px.isLt
  have := py.isLt
  cases wrap with
  | true => exact h
  | false =>
    obtain ⟨hx, hy⟩ : cx = px.val ∧ cy = py.val := h
    omega

/-- A bit of 1 of the row at (x0, cy) lands on the pixel; bit 7 is the leftmost (decision D12). -/
def rowCovers (wrap : Bool) (x0 cy : Nat) (row : Byte) : PixelSet := fun px py =>
  ∃ k < 8, row.getLsbD (7 - k) = true ∧ lands wrap (x0 + k) cy px py

theorem spriteCovers_iff_rowCovers (s : State) (x y : Reg) (n : Rows) (px : Fin 64) (py : Fin 32) :
    (∃ r < n.val, rowCovers s.cfg.wrapSprites (startColumn (s.reg x)) (startRow (s.reg y) + r)
      (s.byte (s.i.toNat + r)) px py) ↔ spriteCovers s x y n px py := by
  constructor
  · rintro ⟨r, hr, k, hk, hbit, hlands⟩
    exact ⟨r, k, hr, hk, hbit, hlands⟩
  · rintro ⟨r, k, hr, hk, hbit, hlands⟩
    exact ⟨r, hr, k, hk, hbit, hlands⟩

/-- One sprite bit flips the pixel it lands on if it is 1, and none if it is 0. -/
theorem Canvas.plotBit_flips (wrap bit : Bool) (cx cy : Nat) (c : Canvas) :
    Canvas.Flips (fun px py => bit = true ∧ lands wrap cx cy px py) c (if bit then c.plot wrap cx cy else c) := by
  cases bit with
  | false => exact .of_empty (by simp) c
  | true =>
    simp only [true_and, if_true, lands_iff_place]
    exact {
      covered := fun h => by rw [Canvas.plot_pixel, if_pos h]
      uncovered := fun h => by rw [Canvas.plot_pixel, if_neg h]
      hit := Canvas.plot_hit wrap cx cy c }

/-- The eight bits of a row stand in different columns, even after wrapping. -/
theorem Canvas.plotRow_flips (wrap : Bool) (x0 cy : Nat) (row : Byte) (c : Canvas) :
    Canvas.Flips (rowCovers wrap x0 cy row) c (c.plotRow wrap x0 cy row) := by
  refine Canvas.Flips.foldl_range 8 (fun k c => Canvas.plotBit_flips wrap _ (x0 + k) cy c) ?_ c
  rintro j k px py hjk hk ⟨-, hj⟩ ⟨-, hk'⟩
  have := mod_eq_of_lands hj
  have := mod_eq_of_lands hk'
  omega

theorem Canvas.plotRows_map_range (wrap : Bool) (x0 cy : Nat) (f : Nat → Byte) (n : Nat) (c : Canvas) :
    Canvas.plotRows wrap x0 cy ((List.range n).map f) c =
      (List.range n).foldl (fun acc r => acc.plotRow wrap x0 (cy + r) (f r)) c := by
  induction n generalizing cy f c with
  | zero => rfl
  | succ n ih =>
    rw [List.range_succ_eq_map, List.map_cons, List.map_map, Canvas.plotRows, ih, List.foldl_cons, List.foldl_map]
    simp only [Function.comp_apply, Nat.add_zero, Nat.succ_eq_add_one, Nat.add_assoc, Nat.add_comm 1]

/-- The at most 15 rows of a sprite stand in different rows of the grid, even after wrapping. -/
theorem State.drawSprite_flips (s : State) (x y : Reg) (n : Rows) :
    Canvas.Flips (spriteCovers s x y n) { disp := s.disp, hit := false }
      (s.drawSprite x y (s.bytes s.i.toNat n.val)) := by
  rw [State.drawSprite, State.bytes, Canvas.plotRows_map_range]
  refine (Canvas.Flips.foldl_range n.val (fun r c => Canvas.plotRow_flips _ _ _ _ c) ?_ _).congr
    (spriteCovers_iff_rowCovers s x y n)
  rintro q r px py hqr hr ⟨_, -, -, hq⟩ ⟨_, -, -, hr'⟩
  have := n.isLt
  have := mod_eq_of_lands hq
  have := mod_eq_of_lands hr'
  omega

/-! ## What CLS and DRW keep and write -/

theorem Keeps.setDisp {regs : List Reg} {parts : List Part} {s t : State} (h : Keeps regs parts s t)
    (hp : .display ∈ parts) (d : Display) : Keeps regs parts s (t.setDisp d) :=
  { h with display := fun hn => absurd hp hn }

theorem keeps_commitDraw_advance (s : State) (c : Canvas) : Keeps [vf] [.display] s (s.commitDraw c).advance :=
  (((Keeps.refl [vf] [.display] s).setDisp (List.mem_singleton_self _) c.disp).setReg
    (List.mem_singleton_self vf) _).setPc _

theorem State.reg_vf_commitDraw (s : State) (c : Canvas) : (s.commitDraw c).advance.reg vf = flagByte c.hit :=
  State.reg_setReg_self _ _ _

theorem flagByte_eq_zero_or_one (b : Bool) : flagByte b = 0 ∨ flagByte b = 1 := by
  cases b
  · exact .inl rfl
  · exact .inr rfl

theorem flagByte_eq_one_iff (b : Bool) : flagByte b = 1 ↔ b = true := by
  cases b <;> decide

/-- DRW of height 0, or with its rows inside memory, answers the drawn canvas, which flips what the sprite covers. -/
theorem exec_drw_flips {n : Rows} {s : State} (hin : n.val = 0 ∨ s.i.toNat + n.val ≤ 0x1000) (x y : Reg) :
    ∃ c, exec (.drw x y n) s = .next (s.commitDraw c).advance ∧
      Canvas.Flips (spriteCovers s x y n) { disp := s.disp, hit := false } c := by
  refine ⟨_, ?_, State.drawSprite_flips s x y n⟩
  obtain ⟨hn, hout, -⟩ | ⟨-, hexec⟩ := exec_drw_cases x y n s
  · omega
  · exact hexec

/-! ## The obligations -/

/-- Settles O35: the drawn canvas flips the covered pixels, and committing it writes the display, VF and PC alone. -/
theorem drawFlipsExactlyTheCoveredPixels : Obligations.DrawFlipsExactlyTheCoveredPixels := by
  unfold Obligations.DrawFlipsExactlyTheCoveredPixels
  intro x y n s hin
  obtain ⟨c, hexec, hflips⟩ := exec_drw_flips hin x y
  exact ⟨_, hexec, rfl, keeps_commitDraw_advance s c, fun px py => ⟨hflips.covered, hflips.uncovered⟩⟩

/-- Settles O36: VF is the hit of the drawn canvas, which says that a covered pixel was 1, and such a pixel is the one
that the draw clears. -/
theorem collisionFlagMeansAPixelWasCleared : Obligations.CollisionFlagMeansAPixelWasCleared := by
  unfold Obligations.CollisionFlagMeansAPixelWasCleared
  intro x y n s hin
  obtain ⟨c, hexec, hflips⟩ := exec_drw_flips hin x y
  have hvf := State.reg_vf_commitDraw s c
  have hhit : flagByte c.hit = 1 ↔ ∃ px py, spriteCovers s x y n px py ∧ s.pixel px py = true := by
    rw [flagByte_eq_one_iff, hflips.hit, or_iff_right Bool.false_ne_true]
    rfl
  refine ⟨_, hexec, hvf ▸ flagByte_eq_zero_or_one c.hit, ?_, hvf ▸ hhit, fun px py => hflips.uncovered⟩
  rw [hvf, hhit]
  exact exists₂_congr fun px py => (hflips.cleared_iff px py).symm

/-- Settles O34: CLS is one write of the display, of the buffer whose pixels are all 0. -/
theorem clearScreenClearsEveryPixel : Obligations.ClearScreenClearsEveryPixel := by
  unfold Obligations.ClearScreenClearsEveryPixel
  intro s
  exact ⟨rfl, _, rfl, Display.pixel_clear, rfl,
    ((Keeps.refl [] [.display] s).setDisp (List.mem_singleton_self _) Display.clear).setPc _⟩

/-- DRW of height 0 is one write of VF: no row is plotted, so the buffer is the old one and nothing was hit (R132). -/
theorem exec_drw_zero (x y : Reg) (s : State) : exec (.drw x y 0) s = .next (s.setReg vf 0).advance := rfl

/-- Settles O37: height 0 writes VF alone, and a row past 0xFFF is the breach of DRW. -/
theorem drawHeightZeroAndOutOfRange : Obligations.DrawHeightZeroAndOutOfRange := by
  unfold Obligations.DrawHeightZeroAndOutOfRange
  intro x y n s
  refine ⟨⟨_, exec_drw_zero x y s, reg_setReg_advance s vf 0, rfl, keeps_setReg_advance s vf 0⟩, fun hn hout => ?_⟩
  refine exec_of_breach ?_
  rw [breach, if_neg (Nat.ne_of_gt hn), rangeBreach_of_word (by omega)]

end Sys2Proof.Machine
end

section
/-! The keypad and the timers (spec/45_keys_timers.md R133 to R139): the key skips, the wait for a key, and the two
timers, which count the ticks of a core that has not halted and nothing else. -/

namespace Sys2Proof.Machine

/-! ## What the updates keep -/

section
variable {regs : List Reg} {parts : List Part} {s t : State}

theorem Keeps.setDt (h : Keeps regs parts s t) (hp : .delay ∈ parts) (b : Byte) : Keeps regs parts s (t.setDt b) :=
  { h with delay := fun hn => absurd hp hn }

theorem Keeps.setSt (h : Keeps regs parts s t) (hp : .sound ∈ parts) (b : Byte) : Keeps regs parts s (t.setSt b) :=
  { h with sound := fun hn => absurd hp hn }

theorem Keeps.setRunstate (h : Keeps regs parts s t) (hp : .runstate ∈ parts) (r : RunState) :
    Keeps regs parts s (t.setRunstate r) :=
  { h with runstate := fun hn => absurd hp hn }

end

theorem keeps_setDt_advance (s : State) (b : Byte) : Keeps [] [.delay] s (s.setDt b).advance :=
  ((Keeps.refl [] [.delay] s).setDt (List.mem_singleton_self _) b).setPc _

theorem keeps_setSt_advance (s : State) (b : Byte) : Keeps [] [.sound] s (s.setSt b).advance :=
  ((Keeps.refl [] [.sound] s).setSt (List.mem_singleton_self _) b).setPc _

theorem keeps_setRunstate (s : State) (r : RunState) : Keeps [] [.runstate] s (s.setRunstate r) :=
  (Keeps.refl [] [.runstate] s).setRunstate (List.mem_singleton_self _) r

/-! ## The timers count the ticks -/

/-- From `s` to `t` both timers have lost `n`, floored at 0, and nothing else changed (R139, R150). -/
structure TimersLose (n : Nat) (s t : State) : Prop where
  delay : t.dt.toNat = s.dt.toNat - n
  sound : t.st.toNat = s.st.toNat - n
  frame : t = { s with dt := t.dt, st := t.st }

theorem TimersLose.zero (s : State) : TimersLose 0 s s := ⟨rfl, rfl, rfl⟩

theorem TimersLose.add {m n : Nat} {s t u : State} (hst : TimersLose m s t) (htu : TimersLose n t u) :
    TimersLose (m + n) s u where
  delay := by rw [htu.delay, hst.delay, Nat.sub_sub]
  sound := by rw [htu.sound, hst.sound, Nat.sub_sub]
  frame := htu.frame.trans (by rw [hst.frame])

theorem TimersLose.runstate {n : Nat} {s t : State} (h : TimersLose n s t) : t.runstate = s.runstate := by
  rw [h.frame]

theorem State.alive_congr {s t : State} (h : t.runstate = s.runstate) : t.alive ↔ s.alive := by
  rw [State.alive, State.alive, h]

theorem State.alive_of_waiting {s : State} {x : Reg} (h : s.runstate = .waitingForKey x) : s.alive := by
  simp [State.alive, h]

theorem tickAction_of_alive {s : State} (h : s.alive) :
    tickAction s = (s.setDt (countDown s.dt)).setSt (countDown s.st) := by
  unfold tickAction
  split
  · next e hhalt => exact absurd hhalt (h e)
  · rfl
  · rfl

theorem timersLose_tickAction {s : State} (h : s.alive) : TimersLose 1 s (tickAction s) := by
  rw [tickAction_of_alive h]
  exact ⟨countDown_toNat s.dt, countDown_toNat s.st, rfl⟩

theorem runActions_cons_of_next {a : Action} {s t : State} (h : act a s = .next t) (rest : List Action) :
    runActions (a :: rest) s = runActions rest t := by
  simp [runActions, h]

/-- A run of ticks, and of steps where no step executes an instruction, takes one from both timers for each tick. -/
theorem runActions_timersLose {as : List Action} {s : State} (hclock : as.all isClock = true) (halive : s.alive)
    (hstep : .step ∈ as → s.runstate ≠ .running) :
    ∃ t, runActions as s = .next t ∧ TimersLose (as.count .tick) s t := by
  induction as generalizing s with
  | nil => exact ⟨s, rfl, .zero s⟩
  | cons a rest ih =>
    obtain ⟨ha, hrest⟩ : isClock a = true ∧ rest.all isClock = true := by simpa using hclock
    cases a with
    | step =>
      obtain ⟨t, hrun, hlose⟩ := ih hrest halive fun h => hstep (List.mem_cons_of_mem _ h)
      have hstay : act .step s = .next s := stepAction_of_not_running (hstep List.mem_cons_self)
      exact ⟨t, (runActions_cons_of_next hstay rest).trans hrun, by simpa using hlose⟩
    | tick =>
      have htick := timersLose_tickAction halive
      obtain ⟨t, hrun, hlose⟩ := ih hrest ((State.alive_congr htick.runstate).mpr halive)
        fun h => htick.runstate ▸ hstep (List.mem_cons_of_mem _ h)
      refine ⟨t, (runActions_cons_of_next rfl rest).trans hrun, ?_⟩
      rw [List.count_cons_self, Nat.add_comm]
      exact htick.add hlose
    | _ => cases ha

theorem runActions_ticks {s : State} (h : s.alive) (n : Nat) :
    ∃ t, runActions (List.replicate n .tick) s = .next t ∧ TimersLose n s t := by
  have hclock : (List.replicate n Action.tick).all isClock = true := by simp [isClock]
  simpa using runActions_timersLose hclock h (by simp)

/-- Settles O43: a core that waits has not halted, and its steps execute nothing. -/
theorem onlyTicksCountWhileWaiting : Obligations.OnlyTicksCountWhileWaiting := by
  unfold Obligations.OnlyTicksCountWhileWaiting
  intro as s x hwait hclock
  obtain ⟨t, hrun, hlose⟩ := runActions_timersLose hclock (State.alive_of_waiting hwait) (by simp [hwait])
  exact ⟨t, hrun, hlose.delay, hlose.sound, hlose.frame⟩

/-! ## The timer registers -/

theorem State.soundOn_iff (s : State) : s.soundOn = true ↔ s.st.toNat > 0 := by
  obtain ⟨hsound, -⟩ := outputsReadTheState s
  exact hsound

/-- Settles O38: FX07 is one register write. -/
theorem readDelayTimer : Obligations.ReadDelayTimer := by
  unfold Obligations.ReadDelayTimer
  intro x s
  exact ⟨wordXkk_F_toNat x 0x07, _, rfl, reg_setReg_advance s x s.dt, rfl, keeps_setReg_advance s x s.dt⟩

/-- Settles O39: FX15 and FX18 are one timer write each, and `runActions_ticks` says what n ticks leave of it. -/
theorem setTimersFromRegister : Obligations.SetTimersFromRegister := by
  unfold Obligations.SetTimersFromRegister
  intro x s
  refine ⟨⟨wordXkk_F_toNat x 0x15, _, rfl, rfl, rfl, keeps_setDt_advance s (s.reg x), fun halive n => ?_⟩,
    ⟨wordXkk_F_toNat x 0x18, _, rfl, rfl, rfl, keeps_setSt_advance s (s.reg x), State.soundOn_iff _,
      fun halive n => ?_⟩⟩
  · obtain ⟨u, hrun, hlose⟩ := runActions_ticks (s := (s.setDt (s.reg x)).advance) halive n
    exact ⟨u, hrun, hlose.delay⟩
  · obtain ⟨u, hrun, hlose⟩ := runActions_ticks (s := (s.setSt (s.reg x)).advance) halive n
    have hst : u.st.toNat = (s.reg x).toNat - n := hlose.sound
    refine ⟨u, hrun, hst, ?_⟩
    rw [State.soundOn_iff, hst]
    exact Nat.sub_pos_iff_lt

/-! ## The key skips -/

/-- Settles O17: each is a skip on the state of the key numbered by the low nibble of Vx. -/
theorem keySkipsTestTheLowNibblesKey : Obligations.KeySkipsTestTheLowNibblesKey := by
  unfold Obligations.KeySkipsTestTheLowNibblesKey
  intro x k s hk
  obtain rfl : keyIndex (s.reg x) = k := Fin.ext hk.symm
  refine ⟨⟨_, rfl, skipIf_pc s _, keeps_skipIf s _⟩, ⟨_, rfl, ?_, keeps_skipIf s _⟩⟩
  rw [skipIf_pc]
  cases s.key (keyIndex (s.reg x)) <;> rfl

/-! ## The wait for a key -/

/-- Setting a key to the state it has changes nothing. -/
theorem State.setKey_self {s : State} {k : Key} {b : Bool} (h : s.key k = b) : s.setKey k b = s := by
  subst h
  simp [State.setKey, State.key]

theorem State.key_setKey_true (s : State) (k q : Key) : (s.setKey k true).key q = (s.key q || q == k) := by
  rw [State.key_setKey]
  by_cases h : q = k <;> simp [h]

/-- A key that goes down while up completes a wait (R154; decision D15). -/
theorem keyDownAction_of_event {s : State} {x : Reg} {k : Key} (hwait : s.runstate = .waitingForKey x)
    (hup : s.key k = false) : keyDownAction k s = completeWait x k (s.setKey k true) := by
  simp [keyDownAction, hwait, hup]

/-- A key-down of a key already down is no event and changes nothing (decision D15). -/
theorem keyDownAction_of_down {s : State} {k : Key} (hdown : s.key k = true) : keyDownAction k s = s := by
  obtain ⟨x, -, hup, -⟩ | hset := keyDownAction_cases k s
  · simp [hdown] at hup
  · rw [hset, State.setKey_self hdown]

theorem completeWait_reg (x : Reg) (k : Key) (s : State) (r : Reg) :
    (completeWait x k s).reg r = if r = x then BitVec.ofNat 8 k.val else s.reg r :=
  State.reg_setReg s x r _

/-- Settles O40: FX0A is one write of the run state, and a key-down then is no event or completes the wait. -/
theorem waitForKeyHoldsUntilAKeyDownEvent : Obligations.WaitForKeyHoldsUntilAKeyDownEvent := by
  unfold Obligations.WaitForKeyHoldsUntilAKeyDownEvent
  intro x k s
  refine ⟨_, rfl, rfl, rfl, keeps_setRunstate s (.waitingForKey x), fun hdown => ?_, fun hup => ?_⟩
  · exact congrArg Host.Outcome.next (keyDownAction_of_down hdown)
  · have hreg (r : Reg) := completeWait_reg x k ((s.setRunstate (.waitingForKey x)).setKey k true) r
    have hkey : (BitVec.ofNat 8 k.val).toNat = k.val := by
      have := k.isLt
      rw [BitVec.toNat_ofNat, Nat.mod_eq_of_lt (by omega)]
    refine ⟨_, congrArg Host.Outcome.next (keyDownAction_of_event rfl hup), rfl, ?_, rfl,
      fun r hr => (hreg r).trans (if_neg hr), State.key_setKey_true s k, rfl, rfl, rfl, rfl, rfl, rfl⟩
    rw [hreg, if_pos rfl, hkey]

end Sys2Proof.Machine
end

section
/-! Fatal errors and the actions of the host (spec/60_exceptions.md R142 to R145, R150 to R154): an instruction halts exactly
on its breach, Halted is terminal but for the keypad, and what a key action and a tick change. -/

namespace Sys2Proof.Machine

/-! ## An instruction and its breach -/

/-- An instruction without a breach does not halt: the run state it leaves is the old one or a wait (R142). -/
theorem dataAfter_alive (i : Instr) {s : State} (h : s.alive) : (dataAfter i s).alive := by
  obtain hkeep | ⟨x, -, hwait⟩ := dataAfter_runstate i s
  · exact (State.alive_congr hkeep).mpr h
  · exact State.alive_of_waiting (congrArg State.runstate hwait)

/-- Settles O11, by `exec_of_breach` and `exec_of_no_breach`, which say what an instruction answers in the two cases. -/
theorem execHaltsExactlyOnABreach : Obligations.ExecHaltsExactlyOnABreach := by
  unfold Obligations.ExecHaltsExactlyOnABreach
  exact fun i s => ⟨fun e hbreach => exec_of_breach hbreach,
    fun hnone => ⟨_, exec_of_no_breach hnone, fun halive => dataAfter_alive i halive⟩⟩

/-! ## Key actions -/

/-- `t` is `s` but for the keypad. -/
def SameButKeys (s t : State) : Prop := t = { s with keys := t.keys }

theorem SameButKeys.refl (s : State) : SameButKeys s s := rfl

theorem SameButKeys.trans {s t u : State} (hst : SameButKeys s t) (htu : SameButKeys t u) : SameButKeys s u :=
  Eq.trans htu (by rw [hst])

theorem SameButKeys.runstate {s t : State} (h : SameButKeys s t) : t.runstate = s.runstate := by
  rw [h]

theorem sameButKeys_setKey (s : State) (k : Key) (b : Bool) : SameButKeys s (s.setKey k b) := rfl

theorem State.key_setKey_false (s : State) (k q : Key) : (s.setKey k false).key q = (s.key q && q != k) := by
  rw [State.key_setKey]
  by_cases h : q = k <;> simp [h]

/-- Outside a wait a key-down only sets its key (R154; decision D32). -/
theorem keyDownAction_of_not_waiting {s : State} (h : ∀ x, s.runstate ≠ .waitingForKey x) (k : Key) :
    keyDownAction k s = s.setKey k true := by
  obtain ⟨x, hwait, -⟩ | hset := keyDownAction_cases k s
  · exact absurd hwait (h x)
  · exact hset

/-- Settles O41: a key-up is one write of a key state, and so is a key-down outside a wait. -/
theorem keyActionsSetKeyStates : Obligations.KeyActionsSetKeyStates := by
  unfold Obligations.KeyActionsSetKeyStates
  intro k s
  refine ⟨⟨s.setKey k false, rfl, State.key_setKey_false s k, sameButKeys_setKey s k false⟩, fun hnot => ?_⟩
  exact ⟨s.setKey k true, congrArg Host.Outcome.next (keyDownAction_of_not_waiting hnot k), State.key_setKey_true s k,
    sameButKeys_setKey s k true⟩

/-! ## The tick -/

theorem tickAction_of_halted {s : State} {e : ErrorRecord} (h : s.runstate = .halted e) : tickAction s = s := by
  simp [tickAction, h]

/-- Settles O42: a tick takes one from both timers of a core that has not halted, and does nothing in Halted. -/
theorem tickDecrementsBothTimers : Obligations.TickDecrementsBothTimers := by
  unfold Obligations.TickDecrementsBothTimers
  refine fun s => ⟨fun halive => ?_, fun hdead => ?_⟩
  · obtain ⟨hdelay, hsound, hframe⟩ := timersLose_tickAction halive
    exact ⟨_, rfl, hdelay, hsound, hframe⟩
  · obtain ⟨e, hhalt⟩ : ∃ e, s.runstate = .halted e := by simpa [State.alive] using hdead
    exact congrArg Host.Outcome.next (tickAction_of_halted hhalt)

/-! ## Halted is terminal -/

/-- In Halted an action other than a reset changes at most the keypad: a step and a tick do nothing, a key action sets a key
state (R145, R151; decisions D24, D34). -/
theorem act_of_halted {s : State} {e : ErrorRecord} (h : s.runstate = .halted e) {a : Action} (ha : notReset a = true) :
    ∃ t, act a s = .next t ∧ SameButKeys s t := by
  cases a with
  | step => exact ⟨s, stepAction_of_not_running (by simp [h]), .refl s⟩
  | tick => exact ⟨s, congrArg Host.Outcome.next (tickAction_of_halted h), .refl s⟩
  | keyDown k =>
    have hset : keyDownAction k s = s.setKey k true := keyDownAction_of_not_waiting (by simp [h]) k
    exact ⟨_, congrArg Host.Outcome.next hset, sameButKeys_setKey s k true⟩
  | keyUp k => exact ⟨_, rfl, sameButKeys_setKey s k false⟩
  | reset rom cfg => cases ha

/-- Settles O12, by induction on the actions: each leaves the core halted with the same error, so `act_of_halted` applies to
the next. -/
theorem haltedIsTerminal : Obligations.HaltedIsTerminal := by
  unfold Obligations.HaltedIsTerminal
  intro as
  induction as with
  | nil => exact fun s _ _ _ => ⟨s, rfl, .refl s⟩
  | cons a rest ih =>
    intro s e hhalt hall
    obtain ⟨ha, hrest⟩ : notReset a = true ∧ rest.all notReset = true := by simpa using hall
    obtain ⟨t, hact, hst⟩ := act_of_halted hhalt ha
    obtain ⟨u, hrun, htu⟩ := ih t e (hst.runstate.trans hhalt) hrest
    exact ⟨u, (runActions_cons_of_next hact rest).trans hrun, hst.trans htu⟩

end Sys2Proof.Machine
end

section
/-! Loading a ROM image (spec/70_reset_and_hazards.md R164, R165): which images the reset action accepts, and where the bytes
of an accepted one stand. -/

namespace Sys2Proof.Machine

/-- The ROM is placed verbatim: its k-th byte stands k bytes above the origin (R164). -/
theorem freshState_byte_rom {rom : List Byte} {k : Nat} (h : k < rom.length) (cfg : Config) (s : State) :
    (freshState rom cfg s).byte (cfg.loadOrigin.toNat + k) = rom[k] := by
  have hinside : cfg.loadOrigin.toNat ≤ cfg.loadOrigin.toNat + k ∧
      cfg.loadOrigin.toNat + k - cfg.loadOrigin.toNat < rom.length := by omega
  rw [freshState_byte, dif_pos hinside]
  simp only [Nat.add_sub_cancel_left]

/-- Settles O45, by the two cases of the reset action: an image that fits makes the fresh state, which holds it verbatim, and
a larger one is refused. -/
theorem resetPlacesTheRomVerbatim : Obligations.ResetPlacesTheRomVerbatim := by
  unfold Obligations.ResetPlacesTheRomVerbatim
  intro rom cfg s
  obtain ⟨hfits, hfresh⟩ | ⟨hlarge, hrefused⟩ := resetAction_cases rom cfg s
  · exact ⟨fun hlarge => absurd hfits (by omega), fun _ => ⟨_, hfresh, fun _ hk => freshState_byte_rom hk cfg s⟩⟩
  · exact ⟨fun _ => hrefused, fun hfits => absurd hlarge (by omega)⟩

end Sys2Proof.Machine
end
